-- ==== Sys2Proof/Word.lean ====
section
/-! DEFINITION. The word and the byte of the block.

Every register, memory word and instruction word is 16 bits (rule R6, WORD_BITS); the console ports carry 8-bit
bytes (rule R8). -/

namespace Sys2Proof

/-- A 16-bit register, memory or instruction word, and a word address (rules R6, R40). -/
abbrev Word := BitVec 16

/-- A byte of the console ports and of a program image (rules R8, R233). -/
abbrev Byte := BitVec 8

end Sys2Proof
end

