-- ==== Sys2Proof/Config.lean ====
section
/-! DEFINITION. The parameters that the spec leaves open (rule R6, second table): their types, the record that holds
one value of each, and the three whose value the source does not give, as constants without a body.

The fixed numbers of the block (addresses, trap vectors, reset pc) stand in Machine/Platform.lean. -/

namespace Sys2Proof.Config

/-- KBSR_READY_MODE: what a non-zero poll byte does to bits [14:0] of KBSR (rules R6 and R46, decision D4). -/
inductive KbsrReadyMode where
  /-- The poll assigns 0x8000 to KBSR; the spec's default. -/
  | assign
  /-- The poll ORs bit 15 into KBSR and leaves bits [14:0] alone. -/
  | or
  deriving DecidableEq, Repr

/-- JSRR_ORDER: for JSRR with BaseR = 7, which happens first (rules R6 and R157, decision D3). -/
inductive JsrrOrder where
  /-- R7 is written before BaseR is read; the spec's default. -/
  | writeR7First
  /-- BaseR is read before R7 is written; the spec's alternative. -/
  | readBaseFirst
  deriving DecidableEq, Repr

/-- One value for each open parameter of rule R6. The model takes it as an argument: `Machine.State` carries it, no
instruction changes it, and a statement about every state is a statement about every parameter value. -/
structure Params where
  /-- KBSR_READY_MODE (decision D4). -/
  kbsrReadyMode : KbsrReadyMode
  /-- JSRR_ORDER (decision D3). -/
  jsrrOrder : JsrrOrder
  /-- IN_PROMPT: the bytes the IN routine prints before it reads (decision D8). -/
  inPrompt : List Byte
  /-- HALT_NOTICE: the bytes the HALT routine prints (decision D9). -/
  haltNotice : List Byte
  /-- IO_FAIL_STATUS: the exit status of a host I/O failure; the spec says only that it is non-zero (decision D7). -/
  ioFailStatus : Nat
  deriving DecidableEq, Repr

/-- FREE VALUE. IN_PROMPT of this hardware: the source gives no text (decision D8; log entry 5). -/
opaque inPrompt : List Byte

/-- FREE VALUE. HALT_NOTICE of this hardware: the source gives no text (decision D9; log entry 5). -/
opaque haltNotice : List Byte

/-- FREE VALUE. One less than IO_FAIL_STATUS of this hardware: any number (decision D7; log entry 5). -/
opaque ioFailStatusPred : Nat

/-- IO_FAIL_STATUS of this hardware: some non-zero value, and nothing else is known of it (rule R203). -/
def ioFailStatus : Nat := ioFailStatusPred + 1

end Sys2Proof.Config
end

