-- ==== Sys2Proof/Machine/Platform.lean ====
section
/-! DEFINITION. The fixed numbers of the block (rule R6, first table) and the values it takes at reset that are numbers
of the source: rule R7 asks that the device addresses be named once and not spelt inline. -/

namespace Sys2Proof.Machine

/-- MEM_WORDS: the number of words of the address space (rules R6, R31). -/
def memWords : Nat := 65536

/-- KBSR_ADDR, the keyboard status word's address (rules R6, R7, R45). -/
def kbsrAddr : Word := 0xFE00#16

/-- KBDR_ADDR, the keyboard data word's address (rules R6, R7, R45). -/
def kbdrAddr : Word := 0xFE02#16

/-- Bit 15 of KBSR alone, KBSR_READY_BIT (rules R6, R48). -/
def kbsrReady : Word := 0x8000#16

/-- The trap vector of GETC (rules R6, R170). -/
def vectGetc : Byte := 0x20#8
/-- The trap vector of OUT (rules R6, R170). -/
def vectOut : Byte := 0x21#8
/-- The trap vector of PUTS (rules R6, R170). -/
def vectPuts : Byte := 0x22#8
/-- The trap vector of IN (rules R6, R170). -/
def vectIn : Byte := 0x23#8
/-- The trap vector of PUTSP (rules R6, R170). -/
def vectPutsp : Byte := 0x24#8
/-- The trap vector of HALT (rules R6, R170). -/
def vectHalt : Byte := 0x25#8

/-- The six trap vectors that name a routine; every other one is unknown (rule R181). -/
def knownVector (v : Byte) : Bool :=
  v == vectGetc || v == vectOut || v == vectPuts || v == vectIn || v == vectPutsp || v == vectHalt

/-- The opcode RTI has in a RESERVED_OPCODE stop (rule R190). -/
def opcodeRti : BitVec 4 := 0x8#4

/-- The opcode RES has in a RESERVED_OPCODE stop (rule R191). -/
def opcodeRes : BitVec 4 := 0xD#4

/-- EXIT_STATUS_FATAL: HALT, an unknown trap and a reserved opcode (rules R6, R203). -/
def exitStatusFatal : Nat := 1

/-- The values of `cond` (rules R24, R27, decision D21). The encodings are `Cond.bits` in Machine/Flags.lean. -/
inductive Cond where
  /-- NONE: no condition-setting instruction has run since reset. -/
  | none
  /-- NEGATIVE. -/
  | n
  /-- ZERO. -/
  | z
  /-- POSITIVE. -/
  | p
  deriving DecidableEq, Repr

/-- RESET_PC: pc at the first step (rules R6, R36, R231, decision D19). -/
def resetPc : Word := 0x0000#16

/-- cond after reset (rules R27, R36). -/
def resetCond : Cond := .none

/-- What every memory word holds at reset, and so what an address that `Memory` does not list reads as (rule R31). -/
def resetWord : Word := 0x0000#16

/-- The open parameters at the values of this hardware: the spec's defaults for the two switches, and the free values of
Config for the three that the source does not give (rule R6; log entries 3, 4 and 5). -/
def sourceParams : Config.Params :=
  { kbsrReadyMode := .assign
    jsrrOrder := .writeR7First
    inPrompt := Config.inPrompt
    haltNotice := Config.haltNotice
    ioFailStatus := Config.ioFailStatus }

end Sys2Proof.Machine
end

