-- ==== Sys2Proof/Syntax.lean ====
section
/-! DEFINITION. The instructions, as syntax: one constructor per row of spec/opcode_table.json.

A field of an instruction has exactly the width its encoding gives it (rules R14 and R71), so no operand is out of
range. Bits that no rule reads (rule R76) are no part of an instruction: two words that differ only there are the same
instruction (rule R84). The rows RET, GETC, OUT, PUTS, IN, PUTSP and HALT are the words of JMP and TRAP with one
operand value (rule R83); each has its constructor, and the decoder answers the more particular one. -/

namespace Sys2Proof

/-- R0-R7, the eight general registers (rule R20); a 3-bit field selects one. -/
inductive Reg where
  | r0 | r1 | r2 | r3 | r4 | r5 | r6 | r7
  deriving DecidableEq, Repr

/-- The instructions of rule R74 in the order of the opcode table. -/
inductive Instr where
  /-- `ADD DR, SR1, SR2` (rule R100). -/
  | addReg (dr sr1 sr2 : Reg)
  /-- `ADD DR, SR1, #imm5` (rule R101). -/
  | addImm (dr sr1 : Reg) (imm5 : BitVec 5)
  /-- `AND DR, SR1, SR2` (rule R103). -/
  | andReg (dr sr1 sr2 : Reg)
  /-- `AND DR, SR1, #imm5` (rule R104). -/
  | andImm (dr sr1 : Reg) (imm5 : BitVec 5)
  /-- `NOT DR, SR` (rule R106). -/
  | not (dr sr : Reg)
  /-- `BR[n][z][p] PCoffset9` (rule R150); `nzp` has n in bit 2, z in bit 1 and p in bit 0 (rule R72). -/
  | br (nzp : BitVec 3) (pcOffset9 : BitVec 9)
  /-- `LD DR, PCoffset9` (rule R120). -/
  | ld (dr : Reg) (pcOffset9 : BitVec 9)
  /-- `ST SR, PCoffset9` (rule R130). -/
  | st (sr : Reg) (pcOffset9 : BitVec 9)
  /-- `JSR PCoffset11` (rule R155). -/
  | jsr (pcOffset11 : BitVec 11)
  /-- `JSRR BaseR` (rule R156). -/
  | jsrr (baseR : Reg)
  /-- `LDR DR, BaseR, #offset6` (rule R124). -/
  | ldr (dr baseR : Reg) (offset6 : BitVec 6)
  /-- `STR SR, BaseR, #offset6` (rule R134). -/
  | str (sr baseR : Reg) (offset6 : BitVec 6)
  /-- `RTI`, reserved (rule R190). -/
  | rti
  /-- `LDI DR, PCoffset9` (rule R122). -/
  | ldi (dr : Reg) (pcOffset9 : BitVec 9)
  /-- `STI SR, PCoffset9` (rule R132). -/
  | sti (sr : Reg) (pcOffset9 : BitVec 9)
  /-- `JMP BaseR` (rule R153). -/
  | jmp (baseR : Reg)
  /-- `RET`, which is `JMP R7` (rule R154). -/
  | ret
  /-- `RES`, reserved (rule R191). -/
  | res
  /-- `LEA DR, PCoffset9` (rule R126). -/
  | lea (dr : Reg) (pcOffset9 : BitVec 9)
  /-- `TRAP trapvect8` (rule R170). -/
  | trap (trapvect8 : BitVec 8)
  /-- `GETC`, which is `TRAP x20` (rule R173). -/
  | getc
  /-- `OUT`, which is `TRAP x21` (rule R174). -/
  | out
  /-- `PUTS`, which is `TRAP x22` (rule R175). -/
  | puts
  /-- `IN`, which is `TRAP x23` (rule R178). -/
  | inp
  /-- `PUTSP`, which is `TRAP x24` (rule R179). -/
  | putsp
  /-- `HALT`, which is `TRAP x25` (rule R180). -/
  | halt
  deriving DecidableEq, Repr

end Sys2Proof
end

