-- ==== Sys2Proof/WellFormed.lean ====
section
/-! DEFINITION. Which terms of `Instr` are the canonical name of a word.

The field widths leave nothing out of range. What is left to check is that a word has ONE name: `JMP R7` is written `ret`
and `TRAP x20` ... `TRAP x25` by the routine's name (rules R83, R154). `Machine.exec` gives the other spelling the same
meaning all the same. -/

namespace Sys2Proof

/-- The instruction is the decoder's own name for its words. -/
def Instr.wellFormed : Instr → Bool
  | .jmp baseR => baseR != .r7
  | .trap v => !Machine.knownVector v
  | .addReg _ _ _ | .addImm _ _ _ | .andReg _ _ _ | .andImm _ _ _ | .not _ _ | .br _ _ | .ld _ _ | .st _ _
  | .jsr _ | .jsrr _ | .ldr _ _ _ | .str _ _ _ | .rti | .ldi _ _ | .sti _ _ | .ret | .res | .lea _ _
  | .getc | .out | .puts | .inp | .putsp | .halt => true

end Sys2Proof
end

