-- ==== Sys2Proof/Decode.lean ====
section
/-! DEFINITION. The decoder (rules R70-R78) and, after it, the encoder (rules R71, R74, R84).

An instruction is one 16-bit word (rule R70). The decoder is total on words: "No decode outcome means invalid" (rule
R75). The only thing it can be refused is a byte sequence that holds no whole word, and a table word wider than one. -/

namespace Sys2Proof

/-- The register a 3-bit field selects (rule R72). -/
def Reg.ofBits (b : BitVec 3) : Reg :=
  match b.toNat with
  | 0 => .r0
  | 1 => .r1
  | 2 => .r2
  | 3 => .r3
  | 4 => .r4
  | 5 => .r5
  | 6 => .r6
  | _ => .r7

/-- The 3-bit index of a register (rule R72). -/
def Reg.bits : Reg → BitVec 3
  | .r0 => 0#3
  | .r1 => 1#3
  | .r2 => 2#3
  | .r3 => 3#3
  | .r4 => 4#3
  | .r5 => 5#3
  | .r6 => 6#3
  | .r7 => 7#3

/-- instr[15:12] (rules R74, R75). -/
def opcodeOf (w : Word) : BitVec 4 := w.extractLsb' 12 4
/-- instr[11:9]: DR, or the SR of a store, or the BR mask (rule R14). -/
def field11to9 (w : Word) : BitVec 3 := w.extractLsb' 9 3
/-- instr[8:6]: SR1, the SR of NOT, or BaseR (rule R14). -/
def field8to6 (w : Word) : BitVec 3 := w.extractLsb' 6 3
/-- instr[2:0]: SR2 (rule R14). -/
def field2to0 (w : Word) : BitVec 3 := w.extractLsb' 0 3
/-- imm5 = instr[4:0] (rule R14). -/
def imm5Of (w : Word) : BitVec 5 := w.extractLsb' 0 5
/-- offset6 = instr[5:0] (rule R14). -/
def offset6Of (w : Word) : BitVec 6 := w.extractLsb' 0 6
/-- PCoffset9 = instr[8:0] (rule R14). -/
def pcOffset9Of (w : Word) : BitVec 9 := w.extractLsb' 0 9
/-- PCoffset11 = instr[10:0] (rule R14). -/
def pcOffset11Of (w : Word) : BitVec 11 := w.extractLsb' 0 11
/-- trapvect8 = instr[7:0] (rule R14). -/
def trapvect8Of (w : Word) : BitVec 8 := w.extractLsb' 0 8
/-- instr[5]: the mode bit of ADD and AND (rule R73). -/
def immediateMode (w : Word) : Bool := w.getLsbD 5
/-- instr[11]: the long flag of opcode 0100 (rule R73). -/
def longFlag (w : Word) : Bool := w.getLsbD 11

/-- The register that instr[11:9] names. -/
def regAt11 (w : Word) : Reg := Reg.ofBits (field11to9 w)
/-- The register that instr[8:6] names. -/
def regAt8 (w : Word) : Reg := Reg.ofBits (field8to6 w)
/-- The register that instr[2:0] names. -/
def regAt2 (w : Word) : Reg := Reg.ofBits (field2to0 w)

/-- JMP, or RET where BaseR = 7 (rules R153, R154). -/
def decodeJmp (baseR : Reg) : Instr := if baseR = .r7 then .ret else .jmp baseR

/-- TRAP by its vector: the routine's name, or TRAP itself for an unknown vector (rules R83, R170). -/
def decodeTrap (v : BitVec 8) : Instr :=
  if v = Machine.vectGetc then .getc
  else if v = Machine.vectOut then .out
  else if v = Machine.vectPuts then .puts
  else if v = Machine.vectIn then .inp
  else if v = Machine.vectPutsp then .putsp
  else if v = Machine.vectHalt then .halt
  else .trap v

/-- The opcode map of rule R74, with the form bits of rule R73 and the fields of rules R71 and R72. -/
def decodeWord (w : Word) : Instr :=
  match (opcodeOf w).toNat with
  | 0x0 => .br (field11to9 w) (pcOffset9Of w)
  | 0x1 => if immediateMode w then .addImm (regAt11 w) (regAt8 w) (imm5Of w)
           else .addReg (regAt11 w) (regAt8 w) (regAt2 w)
  | 0x2 => .ld (regAt11 w) (pcOffset9Of w)
  | 0x3 => .st (regAt11 w) (pcOffset9Of w)
  | 0x4 => if longFlag w then .jsr (pcOffset11Of w) else .jsrr (regAt8 w)
  | 0x5 => if immediateMode w then .andImm (regAt11 w) (regAt8 w) (imm5Of w)
           else .andReg (regAt11 w) (regAt8 w) (regAt2 w)
  | 0x6 => .ldr (regAt11 w) (regAt8 w) (offset6Of w)
  | 0x7 => .str (regAt11 w) (regAt8 w) (offset6Of w)
  | 0x8 => .rti
  | 0x9 => .not (regAt11 w) (regAt8 w)
  | 0xA => .ldi (regAt11 w) (pcOffset9Of w)
  | 0xB => .sti (regAt11 w) (pcOffset9Of w)
  | 0xC => decodeJmp (regAt8 w)
  | 0xD => .res
  | 0xE => .lea (regAt11 w) (pcOffset9Of w)
  | _   => decodeTrap (trapvect8Of w)

/-- Why a byte sequence or a table word is no instruction. No 16-bit word is refused (rule R75). -/
inductive DecodeError where
  /-- Fewer than two bytes are left, so there is no whole word. -/
  | truncated
  deriving DecidableEq, Repr

/-- The first instruction of a byte sequence in the image's byte order, the first byte the high one (rules R42 (a), R233),
and the bytes after it. -/
def decodeBytes : List Byte → Except DecodeError (Instr × List Byte)
  | hi :: lo :: rest => .ok (decodeWord (hi ++ lo), rest)
  | _ => .error .truncated

/-- The decoder on a word as spec/opcode_table.json numbers its bits: one 16-bit word, bit 0 the least significant. A table
word wider than the instruction's one word is refused. -/
def decodeTableWord (nbits w : Nat) : Option Instr :=
  if nbits ≤ 16 ∧ w < 65536 then some (decodeWord (BitVec.ofNat 16 w)) else none

/-! ### The encoder -/

/-- The canonical word of an instruction: every unused bit is 0 (rules R71, R74, R84). -/
def encode : Instr → Word
  | .addReg dr sr1 sr2   => 0x1#4 ++ dr.bits ++ sr1.bits ++ 0#1 ++ 0#2 ++ sr2.bits
  | .addImm dr sr1 imm5  => 0x1#4 ++ dr.bits ++ sr1.bits ++ 1#1 ++ imm5
  | .andReg dr sr1 sr2   => 0x5#4 ++ dr.bits ++ sr1.bits ++ 0#1 ++ 0#2 ++ sr2.bits
  | .andImm dr sr1 imm5  => 0x5#4 ++ dr.bits ++ sr1.bits ++ 1#1 ++ imm5
  | .not dr sr           => 0x9#4 ++ dr.bits ++ sr.bits ++ 0#6
  | .br nzp off          => 0x0#4 ++ nzp ++ off
  | .ld dr off           => 0x2#4 ++ dr.bits ++ off
  | .st sr off           => 0x3#4 ++ sr.bits ++ off
  | .jsr off             => 0x4#4 ++ 1#1 ++ off
  | .jsrr baseR          => 0x4#4 ++ 0#1 ++ 0#2 ++ baseR.bits ++ 0#6
  | .ldr dr baseR off    => 0x6#4 ++ dr.bits ++ baseR.bits ++ off
  | .str sr baseR off    => 0x7#4 ++ sr.bits ++ baseR.bits ++ off
  | .rti                 => 0x8#4 ++ 0#12
  | .ldi dr off          => 0xA#4 ++ dr.bits ++ off
  | .sti sr off          => 0xB#4 ++ sr.bits ++ off
  | .jmp baseR           => 0xC#4 ++ 0#3 ++ baseR.bits ++ 0#6
  | .ret                 => 0xC#4 ++ 0#3 ++ Reg.r7.bits ++ 0#6
  | .res                 => 0xD#4 ++ 0#12
  | .lea dr off          => 0xE#4 ++ dr.bits ++ off
  | .trap v              => 0xF#4 ++ 0#4 ++ v
  | .getc                => 0xF#4 ++ 0#4 ++ Machine.vectGetc
  | .out                 => 0xF#4 ++ 0#4 ++ Machine.vectOut
  | .puts                => 0xF#4 ++ 0#4 ++ Machine.vectPuts
  | .inp                 => 0xF#4 ++ 0#4 ++ Machine.vectIn
  | .putsp               => 0xF#4 ++ 0#4 ++ Machine.vectPutsp
  | .halt                => 0xF#4 ++ 0#4 ++ Machine.vectHalt

/-- The opcode rule R74 gives an instruction's mnemonic. -/
def Instr.opcode : Instr → BitVec 4
  | .br _ _ => 0x0
  | .addReg _ _ _ | .addImm _ _ _ => 0x1
  | .ld _ _ => 0x2
  | .st _ _ => 0x3
  | .jsr _ | .jsrr _ => 0x4
  | .andReg _ _ _ | .andImm _ _ _ => 0x5
  | .ldr _ _ _ => 0x6
  | .str _ _ _ => 0x7
  | .rti => 0x8
  | .not _ _ => 0x9
  | .ldi _ _ => 0xA
  | .sti _ _ => 0xB
  | .jmp _ | .ret => 0xC
  | .res => 0xD
  | .lea _ _ => 0xE
  | .trap _ | .getc | .out | .puts | .inp | .putsp | .halt => 0xF

/-- The bits of a word that some rule reads, as ones; the zeros are the bits rule R76 lists as ignored. -/
def usedBits (w : Word) : Word :=
  match (opcodeOf w).toNat with
  | 0x1 | 0x5 => if immediateMode w then 0xFFFF else 0xFFE7
  | 0x4 => if longFlag w then 0xFFFF else 0xF9C0
  | 0x8 | 0xD => 0xF000
  | 0x9 => 0xFFC0
  | 0xC => 0xF1C0
  | 0xF => 0xF0FF
  | _ => 0xFFFF

end Sys2Proof
end

