-- ==== Sys2Proof/Machine/Bits.lean ====
section
/-! DEFINITION. The bit operations of the spec's notation (rules R10-R12): sign and zero extension, the two bytes of a
word, wrapping addition. -/

namespace Sys2Proof.Machine

/-- `addWrap16`: `(a + b) mod 65536` (rules R11, R102). -/
def addWrap (a b : Word) : Word := a + b

/-- `sext_N` of an N-bit field: the sign bit repeated above the field (rule R12). -/
def sext {n : Nat} (v : BitVec n) : Word := v.signExtend 16

/-- `zext_16`: eight zero bits above the byte (rule R12). -/
def zext (b : Byte) : Word := 0x00#8 ++ b

/-- `w[7:0]` (rule R12). -/
def lowByte (w : Word) : Byte := w.extractLsb' 0 8

/-- `w[15:8]` (rule R12). -/
def highByte (w : Word) : Byte := w.extractLsb' 8 8

/-- A word of the image, whose first byte is bits [15:8] (rules R42 (a), R233). -/
def wordOfBytes (hi lo : Byte) : Word := hi ++ lo

end Sys2Proof.Machine
end

