-- ==== Sys2Proof/Machine/State.lean ====
section
/-! DEFINITION. The state of the block as plain data, why a step can be no step, and reset.

The spec's own state is `(x[0..7], pc, cond, M, run)` (rule R35); KBSR and KBDR are words of M (rules R48, R49). The other
fields are the model's own: the host's side of the console ports (rule R8) and the open parameters (rule R6). -/

namespace Sys2Proof.Machine

/-- The eight general registers x[0]-x[7] (rule R20). -/
structure RegFile where
  r0 : Word
  r1 : Word
  r2 : Word
  r3 : Word
  r4 : Word
  r5 : Word
  r6 : Word
  r7 : Word
  deriving DecidableEq, Repr

/-- A listed memory word: its address and what it holds. Memory is word-addressed (rule R42), so a cell is a word and not
a byte (log entry 1). -/
abbrev Cell := Nat × Word

/-- M, as the list of the words that do not hold `resetWord`, the addresses strictly rising (rule R31). -/
abbrev Memory := List Cell

/-- Which host call failed (rule R201). -/
inductive IoKind where
  /-- The host answered `End` to a `ConsoleIn`. -/
  | inputEnd
  /-- The host answered `Fail` to a `ConsoleOut` or a `ConsoleFlush`. -/
  | outputFail
  deriving DecidableEq, Repr

/-- The stop causes with their recorded info (rule R201). -/
inductive StopCause where
  | halt
  | unknownTrap (v : BitVec 8)
  | reservedOpcode (op : BitVec 4)
  | ioFailure (kind : IoKind)
  deriving DecidableEq, Repr

/-- `run`: RUNNING or STOPPED(cause, exit_status) (rule R32). -/
inductive Run where
  | running
  | stopped (cause : StopCause) (status : Nat)
  deriving DecidableEq, Repr

/-- The host's answer to a `ConsoleIn` (rule R8). -/
inductive ConsoleAnswer where
  | byte (b : Byte)
  /-- The stream is closed or the read failed. -/
  | eof
  deriving DecidableEq, Repr

/-- What the core writes to the console output port (rules R8, R216). -/
inductive ConsoleEvent where
  | byte (b : Byte)
  | flush
  deriving DecidableEq, Repr

/-- The state between two steps. -/
structure State where
  /-- x[0]-x[7] (rule R20). -/
  regs : RegFile
  /-- The program counter (rule R23). -/
  pc : Word
  /-- The condition codes (rule R24). -/
  cond : Cond
  /-- M[0x0000]-M[0xFFFF], KBSR and KBDR among them (rules R31, R48, R49). -/
  mem : Memory
  /-- RUNNING or STOPPED (rule R32). -/
  run : Run
  /-- The model's own: the host's answers to `ConsoleIn` not yet taken, oldest first (rule R8; log entry 2). -/
  input : List ConsoleAnswer
  /-- The model's own: the number of input bytes consumed (rule R216; log entry 7). -/
  consumed : Nat
  /-- The model's own: the console output so far, oldest first (rule R216; log entry 7). -/
  output : List ConsoleEvent
  /-- The model's own: `some k`, the host accepts k more output requests and fails the next one; `none`, it never fails
  one (rule R8; log entry 6). -/
  outputBudget : Option Nat
  /-- The model's own: the open parameters of rule R6, which no step changes (log entry 18). -/
  params : Config.Params
  deriving DecidableEq, Repr

/-- Why a state has no next state. A stop of the spec is no fault here: it is a next state with `run` STOPPED. -/
inductive Fault where
  /-- Raised by `step` of a STOPPED block, which "takes no further step" (rules R80, R202). Safe: the spec has no step
  there either. -/
  | blockStopped
  /-- Raised by a `ConsoleIn` (GETC, IN, a read of KBSR_ADDR) that the host has not answered: the step "holds until the
  host answers" and does not complete (rules R8, R51). Safe: with the answer in `input` the step runs. -/
  | awaitingInput
  /-- Raised by a PUTS or PUTSP walk that has used up its fuel (rule R176; "out of fuel", row 18 of
  93_implementation_defined.md). Safe, and no state raises it: the fuel outlasts every walk (log entry 9). -/
  | outOfFuel
  deriving DecidableEq, Repr

/-- Why an instruction has no meaning. -/
inductive Refusal where
  /-- Raised by an arm of `exec` whose instruction has no meaning yet. Safe; no arm raises it. -/
  | notModelled (mnemonic : String)
  deriving DecidableEq, Repr

/-- Registers "created zero-initialized at machine start" (rules R22, R36). -/
def RegFile.zero : RegFile :=
  { r0 := 0x0000#16, r1 := 0x0000#16, r2 := 0x0000#16, r3 := 0x0000#16
    r4 := 0x0000#16, r5 := 0x0000#16, r6 := 0x0000#16, r7 := 0x0000#16 }

/-- The machine right after reset, no image loaded (rules R36, R230). -/
def State.reset : State :=
  { regs := RegFile.zero
    pc := resetPc
    cond := resetCond
    mem := []
    run := .running
    input := []
    consumed := 0
    output := []
    outputBudget := none
    params := sourceParams }

end Sys2Proof.Machine
end

