-- ==== Sys2Proof/Machine/Flags.lean ====
section
/-! DEFINITION. The condition codes: their encodings, the one flag computation of the block, and the test of BR (rules
R24-R27, R150). -/

namespace Sys2Proof.Machine

/-- The 3-bit encodings of rules R24 and R27. -/
def Cond.bits : Cond → BitVec 3
  | .none => 0b000#3
  | .n => 0b100#3
  | .z => 0b010#3
  | .p => 0b001#3

/-- The code that `setcc` gives a result: ZERO is tested before the sign (rule R25). -/
def condOf (v : Word) : Cond :=
  if v = 0x0000#16 then .z else if v.msb then .n else .p

/-- `cond & mask ≠ 0b000`: the test of BR (rule R150). -/
def Cond.meets (c : Cond) (mask : BitVec 3) : Bool := c.bits &&& mask != 0b000#3

/-- `setcc(v)` (rule R25). -/
def State.setcc (s : State) (v : Word) : State := { s with cond := condOf v }

end Sys2Proof.Machine
end

