-- ==== Sys2Proof/Machine/Memory.lean ====
section
/-! DEFINITION. Reading and writing one word of M (rules R40-R47, R55), without the keyboard: `memRead` of Machine/Ops.lean
adds the poll. -/

namespace Sys2Proof.Machine

/-- The addresses rise strictly from `lo`, none is outside the address space, and no listed word is what an unlisted
address reads as. -/
def Memory.wfFrom (lo : Nat) : Memory → Bool
  | [] => true
  | (k, v) :: rest => decide (lo ≤ k) && decide (k < memWords) && v != resetWord && Memory.wfFrom (k + 1) rest

/-- The canonical form of a memory. -/
def Memory.wf (m : Memory) : Bool := Memory.wfFrom 0 m

/-- The word at address `k`; an unlisted address holds `resetWord` (rules R31, R55). -/
def Memory.readAt (m : Memory) (k : Nat) : Word :=
  match m with
  | [] => resetWord
  | (k', v) :: rest => if k' = k then v else Memory.readAt rest k

/-- M[k] <- v. -/
def Memory.writeAt (m : Memory) (k : Nat) (v : Word) : Memory :=
  match m with
  | [] => if v = resetWord then [] else [(k, v)]
  | (k', v') :: rest =>
    if k < k' then (if v = resetWord then (k', v') :: rest else (k, v) :: (k', v') :: rest)
    else if k = k' then (if v = resetWord then rest else (k, v) :: rest)
    else (k', v') :: Memory.writeAt rest k v

/-- `M[a]` (rule R13). Every 16-bit address is valid (rule R41). -/
def Memory.read (m : Memory) (a : Word) : Word := Memory.readAt m a.toNat

/-- `M[a] <- v` (rule R47). -/
def Memory.write (m : Memory) (a v : Word) : Memory := Memory.writeAt m a.toNat v

end Sys2Proof.Machine
end

