-- ==== Sys2Proof/Machine/Ops.lean ====
section
/-! DEFINITION. The named operations that every meaning is written with: registers, stops, the console ports, MemRead and
MemWrite (rules R13, R15, R46, R47, R201), and the fetch (rule R80). -/

namespace Sys2Proof.Machine

/-! ### Registers and pc (rules R13, R21) -/

/-- `get(index)`. -/
def RegFile.get (f : RegFile) : Reg → Word
  | .r0 => f.r0
  | .r1 => f.r1
  | .r2 => f.r2
  | .r3 => f.r3
  | .r4 => f.r4
  | .r5 => f.r5
  | .r6 => f.r6
  | .r7 => f.r7

/-- `update(index, value)`. -/
def RegFile.set (f : RegFile) (r : Reg) (v : Word) : RegFile :=
  match r with
  | .r0 => { f with r0 := v }
  | .r1 => { f with r1 := v }
  | .r2 => { f with r2 := v }
  | .r3 => { f with r3 := v }
  | .r4 => { f with r4 := v }
  | .r5 => { f with r5 := v }
  | .r6 => { f with r6 := v }
  | .r7 => { f with r7 := v }

/-- `x[i]`. -/
def State.reg (s : State) (r : Reg) : Word := s.regs.get r

/-- `x[i] <- v`. -/
def State.setReg (s : State) (r : Reg) (v : Word) : State := { s with regs := s.regs.set r v }

/-- `pc <- target`. -/
def State.setPc (s : State) (target : Word) : State := { s with pc := target }

/-- The write of a result: the destination register, then `setcc` of the same value (rule R26). -/
def State.writeResult (s : State) (dr : Reg) (v : Word) : State := (s.setReg dr v).setcc v

/-- `MemWrite(a, 16, v)`: a plain write at every address, KBSR and KBDR included (rule R47). -/
def State.memWrite (s : State) (a v : Word) : State := { s with mem := s.mem.write a v }

/-! ### Stops (rules R200-R204)

A stop is the block's only exceptional event. There is nothing to return from one: `run` never becomes RUNNING again
(rules R32, R208). -/

/-- The exit status of a cause (rule R203). -/
def exitStatus (p : Config.Params) : StopCause → Nat
  | .halt => exitStatusFatal
  | .unknownTrap _ => exitStatusFatal
  | .reservedOpcode _ => exitStatusFatal
  | .ioFailure _ => p.ioFailStatus

/-- `raise Stop(cause)`: `run` records the stop and all else keeps the value it has at the raise (rules R15, R201,
R202). -/
def State.raiseStop (s : State) (cause : StopCause) : State :=
  { s with run := .stopped cause (exitStatus s.params cause) }

/-! ### Sequencing

The statements of a rule run in order; a raise ends the step with the effects so far (rules R15, R16), and a hold leaves
it uncompleted (rule R8). -/

/-- How a sequence of statements ends. -/
inductive Flow (α : Type) where
  /-- It goes on from `s`, with a value. -/
  | ok (a : α) (s : State)
  /-- It has raised a stop, and `s` is the stopped state. -/
  | stop (s : State)
  /-- It cannot complete. -/
  | stuck (f : Fault)
  deriving Repr

/-- Statements, then the statements after them. -/
def Flow.andThen {α β : Type} (x : Flow α) (k : α → State → Flow β) : Flow β :=
  match x with
  | .ok a s => k a s
  | .stop s => .stop s
  | .stuck f => .stuck f

/-- The outcome of an instruction whose last statement sets the state `k a s`. -/
def Flow.finish {α : Type} (x : Flow α) (k : α → State → State) : Host.Outcome State Fault Refusal :=
  match x with
  | .ok a s => .next (k a s)
  | .stop s => .next s
  | .stuck f => .fault f

/-- How a sequence of output requests ends. -/
inductive Written where
  /-- The host accepted them all. -/
  | done (s : State)
  /-- The host failed one, and `s` is the stopped state. -/
  | failed (s : State)
  deriving DecidableEq, Repr

/-- Output requests, then the ones after them. -/
def Written.andThen (x : Written) (k : State → Written) : Written :=
  match x with
  | .done s => k s
  | .failed s => .failed s

/-- Output requests as statements of a routine that also reads. -/
def Written.flow : Written → Flow Unit
  | .done s => .ok () s
  | .failed s => .stop s

/-- The state after output requests, where `k` is what the routine does once the host has accepted them. -/
def Written.state (x : Written) (k : State → State) : State :=
  match x with
  | .done s => k s
  | .failed s => s

/-! ### The console ports (rules R8, R172) -/

/-- One output request: the host accepts it, or answers `Fail` and the routine raises IO_FAILURE(OUTPUT_FAIL) with what
was written before standing (rule R172). -/
def emit (e : ConsoleEvent) (s : State) : Written :=
  match s.outputBudget with
  | none => .done { s with output := s.output ++ [e] }
  | some 0 => .failed (s.raiseStop (.ioFailure .outputFail))
  | some (k + 1) => .done { s with output := s.output ++ [e], outputBudget := some k }

/-- `ConsoleOut(b)`. -/
def consoleOut (b : Byte) (s : State) : Written := emit (.byte b) s

/-- `ConsoleFlush()`. -/
def consoleFlush (s : State) : Written := emit .flush s

/-- `for each byte c of bs: ConsoleOut(c)` (rules R178, R180). -/
def consoleOutAll : List Byte → State → Written
  | [], s => .done s
  | b :: bs, s => (consoleOut b s).andThen (consoleOutAll bs)

/-- `ConsoleIn()`, and the stop that every caller raises on `End` (rules R8, R51, R173, R178). With no answer from the
host the step holds. -/
def consoleIn (s : State) : Flow Byte :=
  match s.input with
  | [] => .stuck .awaitingInput
  | .byte b :: rest => .ok b { s with input := rest, consumed := s.consumed + 1 }
  | .eof :: rest => .stop ({ s with input := rest }.raiseStop (.ioFailure .inputEnd))

/-! ### MemRead and the keyboard (rules R46-R52) -/

/-- What a non-zero poll byte makes of the KBSR word (rules R46, R48, KBSR_READY_MODE). -/
def kbsrAfterByte (mode : Config.KbsrReadyMode) (kbsr : Word) : Word :=
  match mode with
  | .assign => kbsrReady
  | .or => kbsr ||| kbsrReady

/-- The poll's effect on KBSR and KBDR, once it has its byte (rule R46). -/
def State.pollByte (s : State) (b : Byte) : State :=
  if b = 0x00#8 then s.memWrite kbsrAddr 0x0000#16
  else (s.memWrite kbdrAddr (zext b)).memWrite kbsrAddr (kbsrAfterByte s.params.kbsrReadyMode (s.mem.read kbsrAddr))

/-- `MemRead(a, 16)` (rule R46): a read of KBSR_ADDR polls first. -/
def memRead (a : Word) (s : State) : Flow Word :=
  if a = kbsrAddr then
    (consoleIn s).andThen fun b s' => .ok ((s'.pollByte b).mem.read a) (s'.pollByte b)
  else .ok (s.mem.read a) s

/-! ### The fetch (rule R80) -/

/-- Fetch the word at pc and increment pc; a stop of the fetch leaves pc (decision D28). -/
def fetch (s : State) : Flow Word :=
  (memRead s.pc s).andThen fun w s' => .ok w (s'.setPc (addWrap s'.pc 0x0001#16))

end Sys2Proof.Machine
end

