-- ==== Sys2Proof/Machine/Operands.lean ====
section
/-! DEFINITION. The operand forms and addressing modes (rules R72, R105, R135). pc is the incremented value in all of
them. -/

namespace Sys2Proof.Machine

/-- PC-relative with a 9-bit displacement: LD, ST, LEA, the pointers of LDI and STI, and the target of BR. -/
def State.pcRel9 (s : State) (off : BitVec 9) : Word := addWrap s.pc (sext off)

/-- PC-relative with an 11-bit displacement: the target of JSR. -/
def State.pcRel11 (s : State) (off : BitVec 11) : Word := addWrap s.pc (sext off)

/-- Base plus offset: LDR and STR. The base register is not modified. -/
def State.basePlus (s : State) (baseR : Reg) (off : BitVec 6) : Word := addWrap (s.reg baseR) (sext off)

/-- Indirect: the word at the PC-relative address is the effective address of LDI and STI; reading it may poll. -/
def pointer (off : BitVec 9) (s : State) : Flow Word := memRead (s.pcRel9 off) s

end Sys2Proof.Machine
end

