-- ==== Sys2Proof/Machine/Control.lean ====
section
/-! DEFINITION. The control transfers (rules R150-R158). None touches memory or cond. -/

namespace Sys2Proof.Machine

/-- BR (rules R150, R151). -/
def execBr (nzp : BitVec 3) (off : BitVec 9) (s : State) : Host.Outcome State Fault Refusal :=
  .next (if s.cond.meets nzp then s.setPc (s.pcRel9 off) else s)

/-- `pc <- x[BaseR]`: JMP and RET. -/
def State.jumpTo (s : State) (baseR : Reg) : State := s.setPc (s.reg baseR)

/-- JMP (rule R153). -/
def execJmp (baseR : Reg) (s : State) : Host.Outcome State Fault Refusal := .next (s.jumpTo baseR)

/-- RET, executed exactly as JMP with BaseR = 7 (rule R154). -/
def execRet (s : State) : Host.Outcome State Fault Refusal := .next (s.jumpTo .r7)

/-- `x[7] <- pc`, the incremented pc: the link of JSR and JSRR (rules R155, R156, R158). -/
def State.link (s : State) : State := s.setReg .r7 s.pc

/-- JSR: the target is computed from the same incremented pc that is the link (rule R155). -/
def execJsr (off : BitVec 11) (s : State) : Host.Outcome State Fault Refusal :=
  .next (s.link.setPc (s.pcRel11 off))

/-- The target of JSRR: BaseR read after or before the link is written (rule R157, JSRR_ORDER). -/
def State.jsrrTarget (s : State) (baseR : Reg) : Word :=
  match s.params.jsrrOrder with
  | .writeR7First => s.link.reg baseR
  | .readBaseFirst => s.reg baseR

/-- JSRR (rules R156, R157). -/
def execJsrr (baseR : Reg) (s : State) : Host.Outcome State Fault Refusal :=
  .next (s.link.setPc (s.jsrrTarget baseR))

end Sys2Proof.Machine
end

