-- ==== Sys2Proof/Machine/DataMovement.lean ====
section
/-! DEFINITION. The loads and stores (rules R120-R135). A load writes the word it read and sets cond from it (rule R125);
a store writes neither a register nor cond (rule R131). -/

namespace Sys2Proof.Machine

/-- LD (rule R120). -/
def execLd (dr : Reg) (off : BitVec 9) (s : State) : Host.Outcome State Fault Refusal :=
  (memRead (s.pcRel9 off) s).finish fun v s' => s'.writeResult dr v

/-- LDI: the pointer is read before the data, and each read may poll (rules R122, R123). -/
def execLdi (dr : Reg) (off : BitVec 9) (s : State) : Host.Outcome State Fault Refusal :=
  ((pointer off s).andThen memRead).finish fun v s' => s'.writeResult dr v

/-- LDR: the address is computed before DR is written (rule R124). -/
def execLdr (dr baseR : Reg) (off : BitVec 6) (s : State) : Host.Outcome State Fault Refusal :=
  (memRead (s.basePlus baseR off) s).finish fun v s' => s'.writeResult dr v

/-- LEA: the address itself, no memory access; it sets cond (rule R126). -/
def execLea (dr : Reg) (off : BitVec 9) (s : State) : Host.Outcome State Fault Refusal :=
  .next (s.writeResult dr (s.pcRel9 off))

/-- ST (rule R130). -/
def execSt (sr : Reg) (off : BitVec 9) (s : State) : Host.Outcome State Fault Refusal :=
  .next (s.memWrite (s.pcRel9 off) (s.reg sr))

/-- STI: the read of the pointer may poll, the store does not (rules R132, R133). -/
def execSti (sr : Reg) (off : BitVec 9) (s : State) : Host.Outcome State Fault Refusal :=
  (pointer off s).finish fun a s' => s'.memWrite a (s'.reg sr)

/-- STR (rule R134). -/
def execStr (sr baseR : Reg) (off : BitVec 6) (s : State) : Host.Outcome State Fault Refusal :=
  .next (s.memWrite (s.basePlus baseR off) (s.reg sr))

end Sys2Proof.Machine
end

