-- ==== Sys2Proof/Machine/Reserved.lean ====
section
/-! DEFINITION. The reserved opcodes RTI and RES: each stops the block, with no other effect (rules R77, R190, R191). -/

namespace Sys2Proof.Machine

/-- RTI: Stop(RESERVED_OPCODE(0x8)) (rule R190). -/
def execRti (s : State) : Host.Outcome State Fault Refusal := .next (s.raiseStop (.reservedOpcode opcodeRti))

/-- RES: Stop(RESERVED_OPCODE(0xD)) (rule R191). -/
def execRes (s : State) : Host.Outcome State Fault Refusal := .next (s.raiseStop (.reservedOpcode opcodeRes))

end Sys2Proof.Machine
end

