-- ==== Sys2Proof/Machine/Trap.lean ====
section
/-! DEFINITION. TRAP and its routines (rules R170-R182). TRAP saves nothing and reads no vector table: a routine is an
operation of the block that runs inside the step (rules R171, R207). -/

namespace Sys2Proof.Machine

/-- GETC: R0 gets the byte, cond is not written, no echo (rule R173). -/
def getcRoutine (s : State) : Host.Outcome State Fault Refusal :=
  (consoleIn s).finish fun b s' => s'.setReg .r0 (zext b)

/-- OUT: the low byte of R0, then a flush (rule R174). -/
def outRoutine (s : State) : Host.Outcome State Fault Refusal :=
  .next (((consoleOut (lowByte (s.reg .r0)) s).andThen consoleFlush).state id)

/-- What PUTS outputs for a word: its low byte (rule R175). -/
def putsWord (w : Word) (s : State) : Written := consoleOut (lowByte w) s

/-- What PUTSP outputs for a word: the low byte, then the high byte where it is not zero (rule R179). -/
def putspWord (w : Word) (s : State) : Written :=
  (consoleOut (lowByte w) s).andThen fun s' =>
    if highByte w = 0x00#8 then .done s' else consoleOut (highByte w) s'

/-- The walk of PUTS and PUTSP: read the word at `a` (which may poll), end at a zero word, output it with `put`, go on at
`a + 1` (rules R175, R176, R179). -/
def walk (put : Word → State → Written) : Nat → Word → State → Flow Unit
  | 0, _, _ => .stuck .outOfFuel
  | fuel + 1, a, s =>
    (memRead a s).andThen fun w s' =>
      if w = 0x0000#16 then .ok () s'
      else (put w s').flow.andThen fun _ s'' => walk put fuel (addWrap a 0x0001#16) s''

/-- Enough for every walk: a lap of the address space reads KBSR_ADDR once, which takes one answer of the host or holds
(rule R176; log entry 9). -/
def walkFuel (s : State) : Nat := memWords * (s.input.length + 1)

/-- The string at x[0], then one flush. -/
def putString (put : Word → State → Written) (s : State) : Host.Outcome State Fault Refusal :=
  ((walk put (walkFuel s) (s.reg .r0) s).andThen fun _ s' => (consoleFlush s').flow).finish fun _ s' => s'

/-- PUTS (rules R175, R176). -/
def putsRoutine (s : State) : Host.Outcome State Fault Refusal := putString putsWord s

/-- PUTSP (rule R179). -/
def putspRoutine (s : State) : Host.Outcome State Fault Refusal := putString putspWord s

/-- IN: prompt, read, echo, R0, cond, flush, in this order (rule R178). -/
def inRoutine (s : State) : Host.Outcome State Fault Refusal :=
  ((consoleOutAll s.params.inPrompt s).flow.andThen fun _ s1 =>
    (consoleIn s1).andThen fun b s2 =>
      (consoleOut b s2).flow.andThen fun _ s3 =>
        (consoleFlush (s3.writeResult .r0 (zext b))).flow).finish fun _ s' => s'

/-- HALT: notice, flush, stop (rule R180). -/
def haltRoutine (s : State) : Host.Outcome State Fault Refusal :=
  .next (((consoleOutAll s.params.haltNotice s).andThen consoleFlush).state fun s' => s'.raiseStop .halt)

/-- A vector that names no routine: no output, no flush, no register (rule R181). -/
def unknownTrap (v : BitVec 8) (s : State) : Host.Outcome State Fault Refusal :=
  .next (s.raiseStop (.unknownTrap v))

/-- TRAP (rule R170). -/
def execTrap (v : BitVec 8) (s : State) : Host.Outcome State Fault Refusal :=
  if v = vectGetc then getcRoutine s
  else if v = vectOut then outRoutine s
  else if v = vectPuts then putsRoutine s
  else if v = vectIn then inRoutine s
  else if v = vectPutsp then putspRoutine s
  else if v = vectHalt then haltRoutine s
  else unknownTrap v s

/-- GETC = TRAP x20 (rules R83, R173). -/
def execGetc (s : State) : Host.Outcome State Fault Refusal := getcRoutine s

/-- OUT = TRAP x21 (rules R83, R174). -/
def execOut (s : State) : Host.Outcome State Fault Refusal := outRoutine s

/-- PUTS = TRAP x22 (rules R83, R175). -/
def execPuts (s : State) : Host.Outcome State Fault Refusal := putsRoutine s

/-- IN = TRAP x23 (rules R83, R178). -/
def execIn (s : State) : Host.Outcome State Fault Refusal := inRoutine s

/-- PUTSP = TRAP x24 (rules R83, R179). -/
def execPutsp (s : State) : Host.Outcome State Fault Refusal := putspRoutine s

/-- HALT = TRAP x25 (rules R83, R180). -/
def execHalt (s : State) : Host.Outcome State Fault Refusal := haltRoutine s

end Sys2Proof.Machine
end

