-- ==== Sys2Proof/Machine/Step.lean ====
section
/-! DEFINITION. One step of the block (rules R80, R81), and the word the next step fetches. -/

namespace Sys2Proof.Machine

/-- One step (rule R80): a STOPPED block takes none; the fetch may poll, and so stop or hold; then the instruction runs
with pc already incremented. -/
def step (s : State) : Host.Outcome State Fault Refusal :=
  match s.run with
  | .stopped _ _ => .fault .blockStopped
  | .running =>
    match fetch s with
    | .ok w s' => exec (decodeWord w) s'
    | .stop s' => .next s'
    | .stuck f => .fault f

/-- `s` with the one-word instruction `w` at pc, where the next step fetches (log entry 12). A pc of KBSR_ADDR fetches the
polled status word instead (rule R50). -/
def State.withFetchWord (s : State) (nbits w : Nat) : State :=
  s.memWrite s.pc (BitVec.ofNat 16 (w % 2 ^ nbits))

end Sys2Proof.Machine
end

