-- ==== Sys2Proof/Machine/Boot.lean ====
section
/-! DEFINITION. The load port: the host loads a program image before the first step (rules R8, R232-R234). No step of the
block loads anything. -/

namespace Sys2Proof.Machine

/-- The image's words, each big-endian; an odd byte at the end is dropped (rules R233, R234). -/
def imageWords : List Byte → List Word
  | hi :: lo :: rest => wordOfBytes hi lo :: imageWords rest
  | _ => []

/-- The words at consecutive addresses from `a`, which wrap past 0xFFFF; plain writes (rules R233, R234). -/
def loadWords : List Word → Word → Memory → Memory
  | [], _, m => m
  | w :: ws, a, m => loadWords ws (addWrap a 0x0001#16) (m.write a w)

/-- Why an image is not loaded. -/
inductive LoadError where
  /-- Fewer than two bytes: there is no origin word, and the block is not started (rule R234). -/
  | noOrigin
  deriving DecidableEq, Repr

/-- `loadImage(bytes)` (rule R233): the first word is the origin; no register, no cond and no pc is set. -/
def loadImage (bytes : List Byte) (s : State) : Except LoadError State :=
  match imageWords bytes with
  | [] => .error .noOrigin
  | origin :: ws => .ok { s with mem := loadWords ws origin s.mem }

/-- The block as the host starts it: reset, then the load (rule R232). -/
def boot (bytes : List Byte) : Except LoadError State := loadImage bytes State.reset

end Sys2Proof.Machine
end

