-- ==== Sys2Proof/Safety.lean ====
section
/-! DEFINITION. What holds of every state the block can be in, what a run is, and the terms the statements are made in:
bit fields and condition codes as rules R10 and R25 put them, who may write what (rules R21, R23, R26), and what a load, an
output request and the end of the input leave (rules R46, R51, R172). -/

namespace Sys2Proof.Machine

/-! ### The invariant and safe states -/

/-- The causes that rule R201 allows: an unknown vector names no routine, and a reserved opcode is RTI's or RES's. -/
def StopCause.legal : StopCause → Bool
  | .unknownTrap v => !knownVector v
  | .reservedOpcode op => op == opcodeRti || op == opcodeRes
  | .halt | .ioFailure _ => true

/-- A stop has a legal cause, and the exit status that rule R203 gives the cause. -/
def Run.legal (p : Config.Params) : Run → Bool
  | .running => true
  | .stopped cause status => cause.legal && status == exitStatus p cause

/-- The invariant: memory is in its canonical form (every address one of the 65536, rule R31), the status of an I/O failure
is not zero (rule R203), and `run` is a status that rules R201 and R203 allow. -/
structure State.Inv (s : State) : Prop where
  mem_wf : s.mem.wf = true
  status_ne_zero : s.params.ioFailStatus ≠ 0
  run_legal : s.run.legal s.params = true

/-- The step from `s` is complete: there is a next state. -/
def State.Completes (s : State) : Prop := ∃ t, step s = .next t

/-- Nothing but the two waits of the spec keeps the block from a next state: it is STOPPED, or it holds on input that the
host has not supplied, with no `End` among the answers that the host has given (rules R51, R202, R215). -/
def State.Safe (s : State) : Prop :=
  s.Completes ∨ (s.run ≠ .running ∧ step s = .fault .blockStopped) ∨
    (s.run = .running ∧ .eof ∉ s.input ∧ step s = .fault .awaitingInput)

/-- `k` completed steps lead from `s` to `t`. -/
def Steps : Nat → State → State → Prop
  | 0, s, t => t = s
  | k + 1, s, t => ∃ u, step s = .next u ∧ Steps k u t

/-! ### Words and condition codes -/

/-- `w[hi:lo]` as a number (rule R10). -/
def field (w : Word) (hi lo : Nat) : Nat := w.toNat / 2 ^ lo % 2 ^ (hi - lo + 1)

/-- The register with index `k` (rules R13, R72). -/
def regNo (k : Nat) : Reg := [Reg.r0, .r1, .r2, .r3, .r4, .r5, .r6, .r7].getD k .r7

/-- `c` is the code of the result `v`: ZERO at 0, NEGATIVE where bit 15 is 1, POSITIVE otherwise (rule R25). -/
def CondIs (c : Cond) (v : Word) : Prop :=
  (v.toNat = 0 ∧ c = .z) ∨ (32768 ≤ v.toNat ∧ c = .n) ∨ (0 < v.toNat ∧ v.toNat < 32768 ∧ c = .p)

end Sys2Proof.Machine

namespace Sys2Proof

/-! ### Who may write what -/

/-- The general register an instruction writes (rule R21). -/
def Instr.dest : Instr → Option Reg
  | .addReg dr _ _ | .addImm dr _ _ | .andReg dr _ _ | .andImm dr _ _ | .not dr _ => some dr
  | .ld dr _ | .ldi dr _ | .ldr dr _ _ | .lea dr _ => some dr
  | .jsr _ | .jsrr _ => some .r7
  | .getc | .inp => some .r0
  | .trap v => if v = 0x20#8 ∨ v = 0x23#8 then some .r0 else none
  | .br _ _ | .st _ _ | .sti _ _ | .str _ _ _ | .jmp _ | .ret | .out | .puts | .putsp | .halt | .rti | .res => none

/-- The instructions that write cond (rule R26). -/
def Instr.writesCond : Instr → Bool
  | .addReg _ _ _ | .addImm _ _ _ | .andReg _ _ _ | .andImm _ _ _ | .not _ _ => true
  | .ld _ _ | .ldi _ _ | .ldr _ _ _ | .lea _ _ => true
  | .inp => true
  | .trap v => v == 0x23#8
  | .jsr _ | .jsrr _ | .getc | .br _ _ | .st _ _ | .sti _ _ | .str _ _ _ | .jmp _ | .ret | .out | .puts | .putsp
  | .halt | .rti | .res => false

/-- The instructions that write pc beside the fetch increment (rule R23). -/
def Instr.movesPc : Instr → Bool
  | .br _ _ | .jmp _ | .ret | .jsr _ | .jsrr _ => true
  | .addReg _ _ _ | .addImm _ _ _ | .andReg _ _ _ | .andImm _ _ _ | .not _ _ | .ld _ _ | .ldi _ _ | .ldr _ _ _
  | .lea _ _ | .st _ _ | .sti _ _ | .str _ _ _ | .trap _ | .getc | .out | .puts | .inp | .putsp | .halt | .rti
  | .res => false

/-- The instructions that read a memory word and so may poll the keyboard (rules R44, R50). -/
def Instr.readsMemory : Instr → Bool
  | .ld _ _ | .ldi _ _ | .ldr _ _ _ | .sti _ _ | .puts | .putsp => true
  | .trap v => v == 0x22#8 || v == 0x24#8
  | .addReg _ _ _ | .addImm _ _ _ | .andReg _ _ _ | .andImm _ _ _ | .not _ _ | .lea _ _ | .st _ _ | .str _ _ _
  | .br _ _ | .jmp _ | .ret | .jsr _ | .jsrr _ | .getc | .out | .inp | .halt | .rti | .res => false

/-- The instructions that store to memory (rule R31). -/
def Instr.storesMemory : Instr → Bool
  | .st _ _ | .sti _ _ | .str _ _ _ => true
  | .addReg _ _ _ | .addImm _ _ _ | .andReg _ _ _ | .andImm _ _ _ | .not _ _ | .ld _ _ | .ldi _ _ | .ldr _ _ _
  | .lea _ _ | .trap _ | .getc | .out | .puts | .inp | .putsp | .halt | .rti | .res | .br _ _ | .jmp _ | .ret
  | .jsr _ | .jsrr _ => false

/-- The instructions that take input from the console themselves (rules R173, R178). -/
def Instr.readsConsole : Instr → Bool
  | .getc | .inp => true
  | .trap v => v == 0x20#8 || v == 0x23#8
  | .addReg _ _ _ | .addImm _ _ _ | .andReg _ _ _ | .andImm _ _ _ | .not _ _ | .lea _ _ | .st _ _ | .str _ _ _
  | .br _ _ | .jmp _ | .ret | .jsr _ | .jsrr _ | .ld _ _ | .ldi _ _ | .ldr _ _ _ | .sti _ _ | .out | .puts | .putsp
  | .halt | .rti | .res => false

/-- The instructions that write console output (rule R172). -/
def Instr.writesConsole : Instr → Bool
  | .out | .puts | .inp | .putsp | .halt => true
  | .trap v => v == 0x21#8 || v == 0x22#8 || v == 0x23#8 || v == 0x24#8 || v == 0x25#8
  | .addReg _ _ _ | .addImm _ _ _ | .andReg _ _ _ | .andImm _ _ _ | .not _ _ | .lea _ _ | .st _ _ | .str _ _ _
  | .br _ _ | .jmp _ | .ret | .jsr _ | .jsrr _ | .ld _ _ | .ldi _ _ | .ldr _ _ _ | .sti _ _ | .getc | .rti
  | .res => false

end Sys2Proof

namespace Sys2Proof.Machine

/-- What an instruction that writes one register and cond leaves alone of the core and of the output port. -/
structure CoreFrame (dr : Reg) (s t : State) : Prop where
  regs : ∀ r, r ≠ dr → t.reg r = s.reg r
  pc : t.pc = s.pc
  run : t.run = s.run
  output : t.output = s.output
  outputBudget : t.outputBudget = s.outputBudget
  params : t.params = s.params

/-- The frame of a result written without a memory access: all but the destination register and cond. -/
structure ResultFrame (dr : Reg) (s t : State) : Prop extends CoreFrame dr s t where
  mem : t.mem = s.mem
  input : t.input = s.input
  consumed : t.consumed = s.consumed

/-! ### The keyboard -/

/-- `t` holds the memory that a poll which consumed `b` makes of the memory of `s` (rules R46, R48, R49). -/
structure PolledBy (b : Byte) (s t : State) : Prop where
  /-- A zero byte clears KBSR; a non-zero byte gives KBSR by KBSR_READY_MODE. -/
  kbsr : t.mem.read 0xFE00#16 =
    if b.toNat = 0 then 0x0000#16
    else match s.params.kbsrReadyMode with
      | .assign => 0x8000#16
      | .or => s.mem.read 0xFE00#16 ||| 0x8000#16
  /-- A zero byte leaves KBDR; a non-zero byte is zero-extended into it. -/
  kbdr : t.mem.read 0xFE02#16 = if b.toNat = 0 then s.mem.read 0xFE02#16 else BitVec.ofNat 16 b.toNat
  /-- No other word changes. -/
  others : ∀ a, a ≠ 0xFE00#16 → a ≠ 0xFE02#16 → t.mem.read a = s.mem.read a

/-- The state after the host's `End` has been taken and has stopped the block (rules R51, R201, R203). -/
def State.inputEnded (s : State) (rest : List ConsoleAnswer) : State :=
  { s with input := rest, run := .stopped (.ioFailure .inputEnd) s.params.ioFailStatus }

/-- What a load of the word at `ea` into `dr` does from `s` (rules R120, R121, R124, R46): away from KBSR_ADDR it reads;
at KBSR_ADDR it takes one byte and loads the KBSR that the byte makes, or stops at the end of the input, or holds. -/
structure LoadResult (o : Host.Outcome State Fault Refusal) (dr : Reg) (ea : Word) (s : State) : Prop where
  plain : ea ≠ 0xFE00#16 →
    ∃ t, o = .next t ∧ t.reg dr = s.mem.read ea ∧ CondIs t.cond (t.reg dr) ∧ ResultFrame dr s t
  polled : ea = 0xFE00#16 → ∀ b rest, s.input = .byte b :: rest →
    ∃ t, o = .next t ∧ PolledBy b s t ∧ t.reg dr = t.mem.read 0xFE00#16 ∧ CondIs t.cond (t.reg dr) ∧
      CoreFrame dr s t ∧ t.input = rest ∧ t.consumed = s.consumed + 1
  ended : ea = 0xFE00#16 → ∀ rest, s.input = .eof :: rest → o = .next (s.inputEnded rest)
  waits : ea = 0xFE00#16 → s.input = [] → o = .fault .awaitingInput

/-- What a store of `v` at `a` does from `s`: that word of memory and nothing else (rules R47, R131). -/
def StoreResult (o : Host.Outcome State Fault Refusal) (a v : Word) (s : State) : Prop :=
  ∃ t, o = .next t ∧ t.mem.read a = v ∧ (∀ b, b ≠ a → t.mem.read b = s.mem.read b) ∧ t = { s with mem := t.mem }

/-- `i`, run from `s`, stores `v` at `a`: the effective address of ST, STI and STR, the pointer of STI read with its poll
(rules R130, R132, R134). -/
def StoresTo (i : Instr) (s : State) (a v : Word) : Prop :=
  match i with
  | .st sr off => a = s.pcRel9 off ∧ v = s.reg sr
  | .str sr baseR off => a = s.basePlus baseR off ∧ v = s.reg sr
  | .sti sr off => (∃ u, memRead (s.pcRel9 off) s = .ok a u) ∧ v = s.reg sr
  | .addReg _ _ _ | .addImm _ _ _ | .andReg _ _ _ | .andImm _ _ _ | .not _ _ | .ld _ _ | .ldi _ _ | .ldr _ _ _
  | .lea _ _ | .trap _ | .getc | .out | .puts | .inp | .putsp | .halt | .rti | .res | .br _ _ | .jmp _ | .ret
  | .jsr _ | .jsrr _ => False

/-! ### Console output -/

/-- The host accepts the next `n` output requests. -/
def State.accepts (s : State) (n : Nat) : Prop := ∀ k, s.outputBudget = some k → n ≤ k

/-- `s` after the host has accepted `es`. -/
def State.wrote (s : State) (es : List ConsoleEvent) : State :=
  { s with output := s.output ++ es, outputBudget := s.outputBudget.map (· - es.length) }

/-- `s` after the host has accepted `es` and failed the request after them (rules R172, R201, R203). -/
def State.failedAfter (s : State) (es : List ConsoleEvent) : State :=
  { s.wrote es with run := .stopped (.ioFailure .outputFail) s.params.ioFailStatus }

/-- The words at `a`, `a + 1`, ... are `ws`, none of them zero, then a zero word, and the walk over them never reads
KBSR_ADDR (rules R175, R176). -/
def StringAt (m : Memory) : Word → List Word → Prop
  | a, [] => a ≠ 0xFE00#16 ∧ m.read a = 0x0000#16
  | a, w :: ws => a ≠ 0xFE00#16 ∧ m.read a = w ∧ w ≠ 0x0000#16 ∧ StringAt m (a + 1) ws

/-- What PUTS outputs for a word: its low byte (rule R175). -/
def putsEvents (w : Word) : List ConsoleEvent := [.byte (BitVec.ofNat 8 w.toNat)]

/-- What PUTSP outputs for a word: its low byte, and its high byte where that is not zero (rule R179). -/
def putspEvents (w : Word) : List ConsoleEvent :=
  .byte (BitVec.ofNat 8 w.toNat) ::
    if w.toNat / 256 = 0 then [] else [.byte (BitVec.ofNat 8 (w.toNat / 256))]

/-- What an output routine that requests `es` and then does `k` makes of `s`: `k` where the host accepts them all, and
else the stop at the first one failed. -/
def OutputResult (o : Host.Outcome State Fault Refusal) (es : List ConsoleEvent) (k : State → State) (s : State) : Prop :=
  (s.accepts es.length → o = .next (k (s.wrote es))) ∧
    ∀ n, s.outputBudget = some n → n < es.length → o = .next (s.failedAfter (es.take n))

/-- The words at `a`, `a + 1`, ... up to KBSR_ADDR are `ws`, none of them zero: the part of a string that a walk outputs
before it reads KBSR_ADDR (rule R176). -/
def StringToKbsr (m : Memory) : Word → List Word → Prop
  | a, [] => a = 0xFE00#16
  | a, w :: ws => a ≠ 0xFE00#16 ∧ m.read a = w ∧ w ≠ 0x0000#16 ∧ StringToKbsr m (a + 1) ws

/-- The outcome `o` with the general registers put back to `regs`. -/
def restoring (regs : RegFile) (o : Host.Outcome State Fault Refusal) : Host.Outcome State Fault Refusal :=
  match o with
  | .next t => .next { t with regs := regs }
  | .fault f => .fault f
  | .refused r => .refused r

/-- The outcome `o` of PUTS or PUTSP (`i`, which outputs `events w` for a word `w`) whose walk has requested `es`, has then
polled at KBSR_ADDR and so has come to `u` with the byte `b` (rules R175, R176, R179). -/
structure WalkPastKbsr (i : Instr) (events : Word → List ConsoleEvent) (es : List ConsoleEvent) (b : Byte) (u : State)
    (o : Host.Outcome State Fault Refusal) : Prop where
  /-- A zero byte makes KBSR zero and so ends the string: the flush follows. -/
  ended : b.toNat = 0 → u.accepts (es.length + 1) → o = .next (u.wrote (es ++ [.flush]))
  flushFails : b.toNat = 0 → u.outputBudget = some es.length → o = .next (u.failedAfter es)
  /-- Any other byte makes KBSR a word of the string, in both modes; the rest is the walk from 0xFE01, as the same
  instruction does it from there with whatever memory, input and host follow. -/
  goesOn : b.toNat ≠ 0 → u.accepts (es ++ events (u.mem.read 0xFE00#16)).length →
    o = restoring u.regs
      (exec i { u.wrote (es ++ events (u.mem.read 0xFE00#16)) with regs := { u.regs with r0 := 0xFE01#16 } })
  statusFails : b.toNat ≠ 0 → ∀ n, u.outputBudget = some n → es.length ≤ n →
    n < (es ++ events (u.mem.read 0xFE00#16)).length →
      o = .next (u.failedAfter ((es ++ events (u.mem.read 0xFE00#16)).take n))
  /-- Where the words from 0xFE01 on are a string `ws`, all of it: the first part, KBSR, `ws`, one flush. -/
  whole : b.toNat ≠ 0 → ∀ ws, StringAt u.mem 0xFE01#16 ws →
    u.accepts (es ++ events (u.mem.read 0xFE00#16) ++ ws.flatMap events ++ [ConsoleEvent.flush]).length →
      o = .next (u.wrote (es ++ events (u.mem.read 0xFE00#16) ++ ws.flatMap events ++ [.flush]))

/-! ### The program image -/

/-- The bytes of an image file that holds these words, each big-endian (rule R233). -/
def imageBytes : List Word → List Byte
  | [] => []
  | w :: ws => BitVec.ofNat 8 (w.toNat / 256) :: BitVec.ofNat 8 w.toNat :: imageBytes ws

/-- The host's answers that are bytes, of which rule R216 counts the number consumed. -/
def byteCount : List ConsoleAnswer → Nat
  | [] => 0
  | .byte _ :: rest => byteCount rest + 1
  | .eof :: rest => byteCount rest

end Sys2Proof.Machine
end

