-- ==== Sys2Proof/Certificates/Slice0/Obligations.lean ====
section
/-! DEFINITION. The statements for the provers. Each docstring names the rule of spec/ it formalises. The numbers of the
spec are written out here and not taken from the model's constants, and fields of a word are read with `field`, so that a
wrong constant or a wrong bit position of the model makes a statement false. -/

open Sys2Proof Sys2Proof.Machine

/-! ### Encoding (30_encoding.md) -/

/-- Decode and encode agree: the word of a well-formed instruction decodes to it, with every operand at every value (rules
R71-R74, R83, R84). -/
def Obligations.DecodeOfEncodeIsIdentity : Prop :=
  ∀ i : Instr, i.wellFormed = true → decodeWord (encode i) = i

/-- Encoding the instruction a word decodes to gives the word with its unused bits cleared (rules R76, R84; the ignoring of
unused bits is the spec's decision D2, log entry 11). -/
def Obligations.EncodeOfDecodeClearsUnusedBits : Prop :=
  ∀ w : Word, encode (decodeWord w) = w &&& usedBits w

/-- Words that differ only in bits that rule R76 lists as ignored are the same instruction (decision D2, log entry 11). -/
def Obligations.UnusedBitsDoNotChangeTheInstruction : Prop :=
  (∀ w w' : Word, field w 15 12 = field w' 15 12 →
    (field w 15 12 = 1 ∨ field w 15 12 = 5) → field w 5 5 = 0 → field w' 5 5 = 0 → field w 11 6 = field w' 11 6 →
    field w 2 0 = field w' 2 0 → decodeWord w = decodeWord w') ∧
  (∀ w w' : Word, field w 15 12 = 9 → field w' 15 12 = 9 → field w 11 6 = field w' 11 6 → decodeWord w = decodeWord w') ∧
  (∀ w w' : Word, field w 15 12 = 12 → field w' 15 12 = 12 → field w 8 6 = field w' 8 6 → decodeWord w = decodeWord w') ∧
  (∀ w w' : Word, field w 15 11 = 8 → field w' 15 11 = 8 → field w 8 6 = field w' 8 6 → decodeWord w = decodeWord w') ∧
  (∀ w w' : Word, field w 15 12 = 15 → field w' 15 12 = 15 → field w 7 0 = field w' 7 0 → decodeWord w = decodeWord w') ∧
  (∀ w w' : Word, field w 15 12 = 8 → field w' 15 12 = 8 → decodeWord w = decodeWord w') ∧
  (∀ w w' : Word, field w 15 12 = 13 → field w' 15 12 = 13 → decodeWord w = decodeWord w')

/-- The decoder is total and names the row of the word's opcode: every word decodes to a well-formed instruction whose
opcode in rule R74's map is instr[15:12] (rules R74, R75; the opcode numbers are decision D1, log entry 11). -/
def Obligations.EveryWordDecodesByItsOpcode : Prop :=
  ∀ w : Word, (decodeWord w).wellFormed = true ∧ (decodeWord w).opcode.toNat = field w 15 12

/-- Operand fields stand where rules R14 and R71 put them and the form bits are those of rule R73, for every word of LD, LDI,
LDR, STI, JSRR and of TRAP with a vector that names no routine; the other families' words stand in their own statements
(opcode numbers: decision D1, log entry 11). -/
def Obligations.OperandFieldsStandAtTheirBits : Prop :=
  ∀ w : Word,
    (field w 15 12 = 2 → decodeWord w = .ld (regNo (field w 11 9)) (BitVec.ofNat 9 (field w 8 0))) ∧
    (field w 15 12 = 4 → field w 11 11 = 0 → decodeWord w = .jsrr (regNo (field w 8 6))) ∧
    (field w 15 12 = 6 →
      decodeWord w = .ldr (regNo (field w 11 9)) (regNo (field w 8 6)) (BitVec.ofNat 6 (field w 5 0))) ∧
    (field w 15 12 = 10 → decodeWord w = .ldi (regNo (field w 11 9)) (BitVec.ofNat 9 (field w 8 0))) ∧
    (field w 15 12 = 11 → decodeWord w = .sti (regNo (field w 11 9)) (BitVec.ofNat 9 (field w 8 0))) ∧
    (field w 15 12 = 15 → (field w 7 0 < 0x20 ∨ 0x25 < field w 7 0) →
      decodeWord w = .trap (BitVec.ofNat 8 (field w 7 0)))

/-- Words written out in the spec (95_test_vectors.md) decode to the instructions they stand for; a sanity statement, at
least one word of every family. -/
def Obligations.WordsOfTheSpecDecode : Prop :=
  decodeWord 0x1042#16 = .addReg .r0 .r1 .r2 ∧ decodeWord 0x1DBD#16 = .addImm .r6 .r6 (-3) ∧
  decodeWord 0x5642#16 = .andReg .r3 .r1 .r2 ∧ decodeWord 0x5020#16 = .andImm .r0 .r0 0 ∧
  decodeWord 0x997F#16 = .not .r4 .r5 ∧ decodeWord 0x086B#16 = .br 0b100 107 ∧
  decodeWord 0x2402#16 = .ld .r2 2 ∧ decodeWord 0xA021#16 = .ldi .r0 33 ∧ decodeWord 0x647F#16 = .ldr .r2 .r1 (-1) ∧
  decodeWord 0xE1FF#16 = .lea .r0 (-1) ∧ decodeWord 0x37FE#16 = .st .r3 (-2) ∧ decodeWord 0xB207#16 = .sti .r1 7 ∧
  decodeWord 0x7185#16 = .str .r0 .r6 5 ∧ decodeWord 0xC080#16 = .jmp .r2 ∧ decodeWord 0xCFFF#16 = .ret ∧
  decodeWord 0x4C00#16 = .jsr (-1024) ∧ decodeWord 0x40C0#16 = .jsrr .r3 ∧ decodeWord 0xFF25#16 = .halt ∧
  decodeWord 0xF022#16 = .puts ∧ decodeWord 0xF026#16 = .trap 0x26 ∧ decodeWord 0x8FFF#16 = .rti ∧
  decodeWord 0xD123#16 = .res

/-! ### Words, addresses and condition codes (00_scope.md, 10_state.md, 41_data_movement.md) -/

/-- Sign extension keeps the field's bits, repeats its sign bit above them and keeps its value; zero extension puts eight
zeros above a byte; the two bytes of a word are its halves (rule R12). -/
def Obligations.ExtensionsAndBytesOfAWord : Prop :=
  (∀ (n : Nat) (v : BitVec n), 1 ≤ n → n ≤ 16 →
    (∀ i, i < n → (sext v).getLsbD i = v.getLsbD i) ∧
    (∀ i, n ≤ i → i < 16 → (sext v).getLsbD i = v.getLsbD (n - 1))) ∧
  (∀ b : Byte, (zext b).toNat = b.toNat) ∧
  (∀ w : Word, (lowByte w).toNat = field w 7 0 ∧ (highByte w).toNat = field w 15 8)

/-- Displacements are signed words, unscaled, and addresses wrap modulo 65536: PC-relative ones count from pc, offset6 from
the base register (rules R72, R135, R11). -/
def Obligations.EffectiveAddressesWrap : Prop :=
  ∀ (s : State) (off9 : BitVec 9) (off11 : BitVec 11) (off6 : BitVec 6) (baseR : Reg),
    ((s.pcRel9 off9).toNat : Int) = ((s.pc.toNat : Int) + off9.toInt) % 65536 ∧
    ((s.pcRel11 off11).toNat : Int) = ((s.pc.toNat : Int) + off11.toInt) % 65536 ∧
    ((s.basePlus baseR off6).toNat : Int) = (((s.reg baseR).toNat : Int) + off6.toInt) % 65536

/-- `setcc` of any word sets cond to ZERO (0b010), NEGATIVE (0b100) or POSITIVE (0b001) by rule R25 and changes nothing
else. -/
def Obligations.SetccFollowsTheConditionLaw : Prop :=
  ∀ (s : State) (v : Word),
    (v = 0x0000#16 → s.setcc v = { s with cond := .z } ∧ Cond.bits .z = 0b010#3) ∧
    (v ≠ 0x0000#16 → v.getLsbD 15 = true → s.setcc v = { s with cond := .n } ∧ Cond.bits .n = 0b100#3) ∧
    (v ≠ 0x0000#16 → v.getLsbD 15 = false → s.setcc v = { s with cond := .p } ∧ Cond.bits .p = 0b001#3)

/-! ### Reset and steps (10_state.md, 30_encoding.md, 60_exceptions.md, 70_reset_and_hazards.md) -/

/-- After reset every register and pc is 0x0000, cond is NONE, every memory word is 0x0000 and the block is RUNNING (rules
R22, R27, R31, R36, R230; pc and cond are decisions D19 and D21, log entries 12 and 13). -/
def Obligations.ResetLeavesTheStatedValues : Prop :=
  (∀ r, State.reset.reg r = 0x0000#16) ∧ State.reset.pc = 0x0000#16 ∧ State.reset.cond = .none ∧
    (∀ a, State.reset.mem.read a = 0x0000#16) ∧ State.reset.run = .running

/-- A step runs the decoded instruction: in a RUNNING state whose pc is not KBSR_ADDR, if the word at pc decodes to `i`, the
step is `exec i` with pc already incremented modulo 65536 and nothing else changed (rule R80). -/
def Obligations.StepRunsTheDecodedInstruction : Prop :=
  ∀ (s : State) (i : Instr), s.run = .running → s.pc ≠ 0xFE00#16 → decodeWord (s.mem.read s.pc) = i →
    step s = exec i { s with pc := BitVec.ofNat 16 (s.pc.toNat + 1) }

/-- A fetch from KBSR_ADDR polls: the polled status word is the instruction, the end of the input stops the block before pc
moves, and with no answer the step holds (rules R50, R80, R231; vectors P2-P4; pc after the stop is decision D28, log
entry 16). -/
def Obligations.FetchFromKbsrPolls : Prop :=
  ∀ s : State, s.Inv → s.run = .running → s.pc = 0xFE00#16 →
    (∀ b rest, s.input = .byte b :: rest →
      ∃ u, PolledBy b s u ∧ u = { s with mem := u.mem, input := rest, consumed := s.consumed + 1 } ∧
        step s = exec (decodeWord (u.mem.read 0xFE00#16)) { u with pc := 0xFE01#16 }) ∧
    (∀ rest, s.input = .eof :: rest → step s = .next (s.inputEnded rest)) ∧
    (s.input = [] → step s = .fault .awaitingInput)

/-- A STOPPED block takes no step, and only a STOPPED block has none for that reason (rules R80, R202). -/
def Obligations.StoppedBlockTakesNoStep : Prop :=
  ∀ s : State, step s = .fault .blockStopped ↔ s.run ≠ .running

/-- Nothing but a stop or a hold on input keeps the block from a next state: no instruction is refused, no data ends a run,
and no walk of PUTS or PUTSP runs out of fuel; and a block that holds is RUNNING and has no `End` among the answers given to
it (rules R41, R51, R75, R176, R202, R215; the fuel is log entry 9). -/
def Obligations.EveryStateStepsOrWaits : Prop :=
  ∀ s : State, s.Safe

/-- A hold lasts only until the host answers: whatever a RUNNING block holds on, its step completes once the host has
answered `End` after the answers it gave before (rules R8, R51, R215). -/
def Obligations.HostAnswerLiftsTheHold : Prop :=
  ∀ s : State, s.run = .running → State.Completes { s with input := s.input ++ [.eof] }

/-- Answers that a step does not take do not change it: with more answers waiting behind, the same step gives the same state
with them still waiting (rules R8, R9, R16). -/
def Obligations.UntakenAnswersDoNotChangeAStep : Prop :=
  ∀ (s t : State) (more : List ConsoleAnswer), step s = .next t →
    step { s with input := s.input ++ more } = .next { t with input := t.input ++ more }

/-- The invariant of the model is kept by every step (rules R31, R201, R203). -/
def Obligations.StepKeepsTheInvariant : Prop :=
  ∀ s t : State, s.Inv → step s = .next t → t.Inv

/-- The invariant holds after reset. -/
def Obligations.ResetMeetsTheInvariant : Prop := State.reset.Inv

/-- A step takes answers from the front of the input and counts the bytes among them, appends to the output, and changes no
parameter (rules R8, R9, R216). -/
def Obligations.StepUsesThePortsInOrder : Prop :=
  ∀ s t : State, step s = .next t →
    ∃ taken written, s.input = taken ++ t.input ∧ t.consumed = s.consumed + byteCount taken ∧
      t.output = s.output ++ written ∧ t.params = s.params

/-- Every stop a step makes has the exit status of its cause: 1, or IO_FAIL_STATUS, which is not 0 (rule R203; the value of
IO_FAIL_STATUS is open, decision D7, log entry 5). -/
def Obligations.StopsHaveTheirExitStatus : Prop :=
  ∀ (s t : State) (c : StopCause) (n : Nat), s.Inv → step s = .next t → t.run = .stopped c n →
    n ≠ 0 ∧ (∀ kind, c = .ioFailure kind → n = s.params.ioFailStatus) ∧ ((∀ kind, c ≠ .ioFailure kind) → n = 1)

/-- Which instructions raise which stop: HALT and TRAP x25 raise HALT, a TRAP its own unknown vector, RTI and RES their
opcode, a memory read or a console read the end of the input, an output routine an output failure (rule R201). -/
def Obligations.StopsHaveTheirRaisers : Prop :=
  ∀ (i : Instr) (s t : State) (c : StopCause) (n : Nat), s.run = .running → exec i s = .next t →
    t.run = .stopped c n →
    (c = .halt ∧ (i = .halt ∨ i = .trap 0x25#8)) ∨
    (∃ v, c = .unknownTrap v ∧ i = .trap v ∧ (v.toNat < 0x20 ∨ 0x25 < v.toNat)) ∨
    (c = .reservedOpcode 0x8#4 ∧ i = .rti) ∨ (c = .reservedOpcode 0xD#4 ∧ i = .res) ∨
    (c = .ioFailure .inputEnd ∧ (i.readsMemory = true ∨ i.readsConsole = true)) ∨
    (c = .ioFailure .outputFail ∧ i.writesConsole = true)

/-- Words 0x0000-0x01FF are never-taken branches: `n` of them at pc are `n` steps that move pc past them and change nothing
else, whatever cond is (rules R78, R150, R231). -/
def Obligations.NeverTakenBranchesSlide : Prop :=
  ∀ (n : Nat) (s : State), s.run = .running →
    (∀ k, k < n → s.pc + BitVec.ofNat 16 k ≠ 0xFE00#16 ∧ (s.mem.read (s.pc + BitVec.ofNat 16 k)).toNat < 0x200) →
    Steps n s { s with pc := s.pc + BitVec.ofNat 16 n }

/-! ### Whole-machine rules -/

/-- An instruction writes no general register but the one rule R21 gives it: in particular TRAP does not write R7, and a
store, a branch or an output routine writes none. -/
def Obligations.RegistersHaveTheirWriters : Prop :=
  ∀ (i : Instr) (s t : State) (r : Reg), exec i s = .next t → i.dest ≠ some r → t.reg r = s.reg r

/-- cond is written by the writers of rule R26 and by no other instruction: not by GETC, not by JSR or JSRR, not by a
store. -/
def Obligations.CondHasItsWriters : Prop :=
  ∀ (i : Instr) (s t : State), exec i s = .next t → i.writesCond = false → t.cond = s.cond

/-- BR is the only instruction that reads cond: with another cond before it, any other instruction does the same to all else,
and cond afterwards is what it writes or what stood there (rule R26). -/
def Obligations.OnlyBranchReadsCond : Prop :=
  ∀ (i : Instr) (s t : State) (c : Cond), (∀ nzp off, i ≠ .br nzp off) → exec i s = .next t →
    ∃ c', exec i { s with cond := c } = .next { t with cond := c' } ∧ (c' = t.cond ∨ (t.cond = s.cond ∧ c' = c))

/-- pc is written by BR, JMP, RET, JSR and JSRR and, in a step, by the fetch increment: after every other completed
instruction pc is the incremented one (rule R23). -/
def Obligations.PcHasItsWriters : Prop :=
  ∀ (i : Instr) (s t : State), exec i s = .next t → i.movesPc = false → t.pc = s.pc

/-- Memory is changed only by a store or by a poll: an instruction that stores nothing changes no word but KBSR and KBDR, and
none at all if it reads no memory or takes no input (rules R31, R44, R50). -/
def Obligations.MemoryHasItsWriters : Prop :=
  ∀ (i : Instr) (s t : State), exec i s = .next t → i.storesMemory = false →
    (∀ a, a ≠ 0xFE00#16 → a ≠ 0xFE02#16 → t.mem.read a = s.mem.read a) ∧
    (i.readsMemory = false → t.mem = s.mem) ∧ (t.input = s.input → t.mem = s.mem)

/-- Input is taken only by GETC, IN and reads of memory, and output is written only by OUT, PUTS, IN, PUTSP and HALT (rules
R50, R172, R182). -/
def Obligations.PortsHaveTheirUsers : Prop :=
  ∀ (i : Instr) (s t : State), exec i s = .next t →
    (i.readsMemory = false → i.readsConsole = false → t.input = s.input ∧ t.consumed = s.consumed) ∧
    (i.writesConsole = false → t.output = s.output ∧ t.outputBudget = s.outputBudget)

/-! ### Operate instructions (40_operate.md) -/

/-- ADD, register mode (rule R100): its words, the sum modulo 65536 in DR, cond from it, nothing else changed, no fault. -/
def Obligations.AddRegisterMode : Prop :=
  (∀ w : Word, field w 15 12 = 1 → field w 5 5 = 0 →
    decodeWord w = .addReg (regNo (field w 11 9)) (regNo (field w 8 6)) (regNo (field w 2 0))) ∧
  ∀ (dr sr1 sr2 : Reg) (s : State), ∃ t, exec (.addReg dr sr1 sr2) s = .next t ∧
    (t.reg dr).toNat = ((s.reg sr1).toNat + (s.reg sr2).toNat) % 65536 ∧ CondIs t.cond (t.reg dr) ∧ ResultFrame dr s t

/-- ADD, immediate mode (rule R101): its words, the sum with the signed imm5 modulo 65536 in DR, cond from it, nothing else
changed, no fault. -/
def Obligations.AddImmediateMode : Prop :=
  (∀ w : Word, field w 15 12 = 1 → field w 5 5 = 1 →
    decodeWord w = .addImm (regNo (field w 11 9)) (regNo (field w 8 6)) (BitVec.ofNat 5 (field w 4 0))) ∧
  ∀ (dr sr1 : Reg) (imm5 : BitVec 5) (s : State), ∃ t, exec (.addImm dr sr1 imm5) s = .next t ∧
    ((t.reg dr).toNat : Int) = (((s.reg sr1).toNat : Int) + imm5.toInt) % 65536 ∧
    CondIs t.cond (t.reg dr) ∧ ResultFrame dr s t

/-- AND, register mode (rule R103): its words, the bitwise AND in DR, cond from it, nothing else changed, no fault. -/
def Obligations.AndRegisterMode : Prop :=
  (∀ w : Word, field w 15 12 = 5 → field w 5 5 = 0 →
    decodeWord w = .andReg (regNo (field w 11 9)) (regNo (field w 8 6)) (regNo (field w 2 0))) ∧
  ∀ (dr sr1 sr2 : Reg) (s : State), ∃ t, exec (.andReg dr sr1 sr2) s = .next t ∧
    (∀ k, k < 16 → (t.reg dr).getLsbD k = ((s.reg sr1).getLsbD k && (s.reg sr2).getLsbD k)) ∧
    CondIs t.cond (t.reg dr) ∧ ResultFrame dr s t

/-- AND, immediate mode (rule R104): its words, the bitwise AND with the sign-extended imm5 in DR, cond from it, nothing else
changed, no fault. -/
def Obligations.AndImmediateMode : Prop :=
  (∀ w : Word, field w 15 12 = 5 → field w 5 5 = 1 →
    decodeWord w = .andImm (regNo (field w 11 9)) (regNo (field w 8 6)) (BitVec.ofNat 5 (field w 4 0))) ∧
  ∀ (dr sr1 : Reg) (imm5 : BitVec 5) (s : State), ∃ t, exec (.andImm dr sr1 imm5) s = .next t ∧
    (∀ k, k < 16 → (t.reg dr).getLsbD k = ((s.reg sr1).getLsbD k && imm5.getLsbD (min k 4))) ∧
    CondIs t.cond (t.reg dr) ∧ ResultFrame dr s t

/-- NOT (rule R106): its words, bits [5:0] ignored, the complement in DR, cond from it, nothing else changed, no fault. -/
def Obligations.NotComplements : Prop :=
  (∀ w : Word, field w 15 12 = 9 → decodeWord w = .not (regNo (field w 11 9)) (regNo (field w 8 6))) ∧
  ∀ (dr sr : Reg) (s : State), ∃ t, exec (.not dr sr) s = .next t ∧
    (t.reg dr).toNat = 65535 - (s.reg sr).toNat ∧ CondIs t.cond (t.reg dr) ∧ ResultFrame dr s t

/-! ### Data movement (41_data_movement.md, 20_memory.md) -/

/-- LD loads the word at its PC-relative address and LDR the word at base plus offset, with the keyboard poll where that is
KBSR_ADDR (rules R120, R121, R124, R125, R46; KBSR_READY_MODE and zero extension are decisions D4 and D5, log entries 3 and
14). -/
def Obligations.LdAndLdrLoadTheirWord : Prop :=
  ∀ (dr baseR : Reg) (off9 : BitVec 9) (off6 : BitVec 6) (s : State), s.Inv →
    LoadResult (exec (.ld dr off9) s) dr (s.pcRel9 off9) s ∧
    LoadResult (exec (.ldr dr baseR off6) s) dr (s.basePlus baseR off6) s

/-- LDI reads its pointer, polling if that read is of KBSR_ADDR, and then loads the word the pointer names, polling again if
that is KBSR_ADDR (rules R122, R123; decision D25). -/
def Obligations.LdiLoadsThroughItsPointer : Prop :=
  ∀ (dr : Reg) (off9 : BitVec 9) (s : State), s.Inv →
    (s.pcRel9 off9 ≠ 0xFE00#16 → LoadResult (exec (.ldi dr off9) s) dr (s.mem.read (s.pcRel9 off9)) s) ∧
    (s.pcRel9 off9 = 0xFE00#16 → ∀ b rest, s.input = .byte b :: rest →
      ∃ u, PolledBy b s u ∧ u = { s with mem := u.mem, input := rest, consumed := s.consumed + 1 } ∧
        LoadResult (exec (.ldi dr off9) s) dr (u.mem.read 0xFE00#16) u) ∧
    (s.pcRel9 off9 = 0xFE00#16 → ∀ rest, s.input = .eof :: rest →
      exec (.ldi dr off9) s = .next (s.inputEnded rest)) ∧
    (s.pcRel9 off9 = 0xFE00#16 → s.input = [] → exec (.ldi dr off9) s = .fault .awaitingInput)

/-- LEA (rule R126): its words; it writes the PC-relative address itself and sets cond from it; it reads no memory and never
polls, and changes nothing else. -/
def Obligations.LeaLoadsTheAddress : Prop :=
  (∀ w : Word, field w 15 12 = 14 → decodeWord w = .lea (regNo (field w 11 9)) (BitVec.ofNat 9 (field w 8 0))) ∧
  ∀ (dr : Reg) (off9 : BitVec 9) (s : State), ∃ t, exec (.lea dr off9) s = .next t ∧
    ((t.reg dr).toNat : Int) = ((s.pc.toNat : Int) + off9.toInt) % 65536 ∧ CondIs t.cond (t.reg dr) ∧ ResultFrame dr s t

/-- ST and STR (rules R130, R134): their words; they store SR at their address, KBSR and KBDR included, and change nothing
else; a write never polls. -/
def Obligations.StAndStrStoreTheirWord : Prop :=
  (∀ w : Word, field w 15 12 = 3 → decodeWord w = .st (regNo (field w 11 9)) (BitVec.ofNat 9 (field w 8 0))) ∧
  (∀ w : Word, field w 15 12 = 7 →
    decodeWord w = .str (regNo (field w 11 9)) (regNo (field w 8 6)) (BitVec.ofNat 6 (field w 5 0))) ∧
  ∀ (sr baseR : Reg) (off9 : BitVec 9) (off6 : BitVec 6) (s : State), s.Inv →
    StoreResult (exec (.st sr off9) s) (s.pcRel9 off9) (s.reg sr) s ∧
    StoreResult (exec (.str sr baseR off6) s) (s.basePlus baseR off6) (s.reg sr) s

/-- STI reads its pointer, polling if that read is of KBSR_ADDR, and stores SR at the address the pointer names without
polling (rules R132, R133). -/
def Obligations.StiStoresThroughItsPointer : Prop :=
  ∀ (sr : Reg) (off9 : BitVec 9) (s : State), s.Inv →
    (s.pcRel9 off9 ≠ 0xFE00#16 →
      StoreResult (exec (.sti sr off9) s) (s.mem.read (s.pcRel9 off9)) (s.reg sr) s) ∧
    (s.pcRel9 off9 = 0xFE00#16 → ∀ b rest, s.input = .byte b :: rest →
      ∃ u, PolledBy b s u ∧ u = { s with mem := u.mem, input := rest, consumed := s.consumed + 1 } ∧
        StoreResult (exec (.sti sr off9) s) (u.mem.read 0xFE00#16) (s.reg sr) u) ∧
    (s.pcRel9 off9 = 0xFE00#16 → ∀ rest, s.input = .eof :: rest →
      exec (.sti sr off9) s = .next (s.inputEnded rest)) ∧
    (s.pcRel9 off9 = 0xFE00#16 → s.input = [] → exec (.sti sr off9) s = .fault .awaitingInput)

/-- MemRead of any address but KBSR_ADDR has no effect, and two reads of KBSR_ADDR in a row take two bytes: each returns a
status that is ready iff its own byte is not zero, KBSR keeps the second status and KBDR the last byte that was not zero
(rule R52). -/
def Obligations.ConsecutivePollsTakeOneByteEach : Prop :=
  (∀ (a : Word) (s : State), a ≠ 0xFE00#16 → memRead a s = .ok (s.mem.read a) s) ∧
  ∀ (s : State) (b1 b2 : Byte) (rest : List ConsoleAnswer), s.Inv → s.input = .byte b1 :: .byte b2 :: rest →
    ∃ w1 s1 w2 s2, memRead 0xFE00#16 s = .ok w1 s1 ∧ memRead 0xFE00#16 s1 = .ok w2 s2 ∧
      (w1.getLsbD 15 = true ↔ b1.toNat ≠ 0) ∧ (w2.getLsbD 15 = true ↔ b2.toNat ≠ 0) ∧
      s2.mem.read 0xFE00#16 = w2 ∧
      (s2.mem.read 0xFE02#16).toNat =
        (if b2.toNat ≠ 0 then b2.toNat else if b1.toNat ≠ 0 then b1.toNat else (s.mem.read 0xFE02#16).toNat) ∧
      s2.input = rest ∧ s2.consumed = s.consumed + 2

/-- A store into the word that the next step fetches takes effect at that fetch: whichever of ST, STR and STI, fetched from any
address, stores `v` at the incremented pc (STI through any pointer, a polled one included), the next step runs the instruction
of `v` (rule R58). The next word is not KBSR_ADDR, where a fetch reads the polled status instead (rule R50,
FetchFromKbsrPolls). -/
def Obligations.StoreIsSeenByTheNextFetch : Prop :=
  ∀ (s t u : State) (w v : Word), s.Inv → s.run = .running → s.pc + 1 ≠ 0xFE00#16 → fetch s = .ok w u →
    StoresTo (decodeWord w) u (s.pc + 1) v → step s = .next t →
    t.pc = s.pc + 1 ∧ step t = exec (decodeWord v) { t with pc := s.pc + 2 }

/-! ### Control transfer (42_control.md) -/

/-- BR (rule R150): its words; it is taken iff the mask has the bit of cond, and never while cond is NONE; a taken branch
goes to the incremented pc plus the displacement, modulo 65536, and nothing else changes. -/
def Obligations.BranchIsTakenByItsMask : Prop :=
  (∀ w : Word, field w 15 12 = 0 → decodeWord w = .br (BitVec.ofNat 3 (field w 11 9)) (BitVec.ofNat 9 (field w 8 0))) ∧
  ∀ (nzp : BitVec 3) (off9 : BitVec 9) (s : State), ∃ t, exec (.br nzp off9) s = .next t ∧ t = { s with pc := t.pc } ∧
    (t.pc.toNat : Int) =
      if (match s.cond with
        | .none => false
        | .n => nzp.getLsbD 2
        | .z => nzp.getLsbD 1
        | .p => nzp.getLsbD 0) = true
      then ((s.pc.toNat : Int) + off9.toInt) % 65536 else (s.pc.toNat : Int)

/-- JMP (rule R153): its words, bits [11:9] and [5:0] ignored; it goes to the value of BaseR and changes nothing else. RET
is JMP with BaseR = 7, canonically 0xC1C0 (rule R154). -/
def Obligations.JumpGoesToTheBaseRegister : Prop :=
  (∀ w : Word, field w 15 12 = 12 →
    (field w 8 6 ≠ 7 → decodeWord w = .jmp (regNo (field w 8 6))) ∧ (field w 8 6 = 7 → decodeWord w = .ret)) ∧
  encode .ret = 0xC1C0#16 ∧
  (∀ (baseR : Reg) (s : State), exec (.jmp baseR) s = .next { s with pc := s.reg baseR }) ∧
  ∀ s : State, exec .ret s = .next { s with pc := s.reg .r7 }

/-- JSR (rule R155): its words; it writes the incremented pc to R7 and goes to that pc plus the displacement, modulo 65536;
every other register, cond, memory and the rest are unchanged. -/
def Obligations.JsrLinksAndBranches : Prop :=
  (∀ w : Word, field w 15 12 = 4 → field w 11 11 = 1 → decodeWord w = .jsr (BitVec.ofNat 11 (field w 10 0))) ∧
  ∀ (off11 : BitVec 11) (s : State), ∃ t, exec (.jsr off11) s = .next t ∧ t.reg .r7 = s.pc ∧
    (∀ r, r ≠ .r7 → t.reg r = s.reg r) ∧ ((t.pc.toNat : Int) = ((s.pc.toNat : Int) + off11.toInt) % 65536) ∧
    t = { s with regs := t.regs, pc := t.pc }

/-- JSRR writes the incremented pc to R7 and goes to the value of BaseR; with BaseR = 7 that is the new R7 under
WRITE_R7_FIRST, the spec's default, and the old one under READ_BASE_FIRST (rules R156, R157; decision D3, log entry 4). -/
def Obligations.JsrrLinksAndJumps : Prop :=
  ∀ (baseR : Reg) (s : State), ∃ t, exec (.jsrr baseR) s = .next t ∧ t.reg .r7 = s.pc ∧
    (∀ r, r ≠ .r7 → t.reg r = s.reg r) ∧ t = { s with regs := t.regs, pc := t.pc } ∧
    (baseR ≠ .r7 → t.pc = s.reg baseR) ∧
    (baseR = .r7 → s.params.jsrrOrder = .writeR7First → t.pc = s.pc) ∧
    (baseR = .r7 → s.params.jsrrOrder = .readBaseFirst → t.pc = s.reg .r7)

/-! ### TRAP and the reserved opcodes (43_trap_reserved.md) -/

/-- GETC takes one byte into R0, zero-extended, and changes neither cond nor anything else; at the end of the input it stops
with R0 unchanged, and with no answer it holds (rule R173; zero extension is decision D5, log entry 14). -/
def Obligations.GetcReadsAByte : Prop :=
  ∀ s : State,
    (∀ b rest, s.input = .byte b :: rest → ∃ t, exec .getc s = .next t ∧ (t.reg .r0).toNat = b.toNat ∧
      (∀ r, r ≠ .r0 → t.reg r = s.reg r) ∧
      t = { s with regs := t.regs, input := rest, consumed := s.consumed + 1 }) ∧
    (∀ rest, s.input = .eof :: rest → exec .getc s = .next (s.inputEnded rest)) ∧
    (s.input = [] → exec .getc s = .fault .awaitingInput)

/-- OUT writes the low byte of R0 and a flush, and stops at the request the host fails (rules R174, R172). -/
def Obligations.OutWritesTheLowByte : Prop :=
  ∀ s : State, OutputResult (exec .out s) [.byte (BitVec.ofNat 8 (s.reg .r0).toNat), .flush] id s

/-- PUTS writes the low byte of every word of the string at R0 and one flush at the end, changes nothing else, and stops at
the request the host fails (rules R175, R176, R172; the wrap of the walk is decision D12, log entry 15). -/
def Obligations.PutsWritesTheString : Prop :=
  ∀ (s : State) (ws : List Word), StringAt s.mem (s.reg .r0) ws →
    OutputResult (exec .puts s) (ws.flatMap putsEvents ++ [.flush]) id s

/-- PUTSP writes both characters of every word of the string at R0, low byte first and a zero high byte suppressed, and one
flush at the end, changes nothing else, and stops at the request the host fails (rules R179, R176, R172; the zero low byte
is decision D11, log entry 15). -/
def Obligations.PutspWritesThePackedString : Prop :=
  ∀ (s : State) (ws : List Word), StringAt s.mem (s.reg .r0) ws →
    OutputResult (exec .putsp s) (ws.flatMap putspEvents ++ [.flush]) id s

/-- A walk of PUTS or PUTSP that reads KBSR_ADDR, at its start or after the words `ws`, polls there. It first outputs `ws`, or
stops at the request the host fails; then a zero byte ends the string, and with any other byte KBSR is output like a word and
the walk goes on at 0xFE01; the end of the input stops it, and with no answer it holds. The ready status 0x8000 is output as
0x00 by PUTS and as 0x00, 0x80 by PUTSP (rules R46, R50, R175, R176, R179; vector TR21; decisions D4, D5 and D11, log entries 3,
14 and 15). -/
def Obligations.PutsPollsAtKbsr : Prop :=
  putsEvents 0x8000#16 = [.byte 0x00#8] ∧ putspEvents 0x8000#16 = [.byte 0x00#8, .byte 0x80#8] ∧
  ∀ (i : Instr) (events : Word → List ConsoleEvent) (s : State) (ws : List Word) (es : List ConsoleEvent),
    (i = .puts ∧ events = putsEvents) ∨ (i = .putsp ∧ events = putspEvents) →
    s.Inv → StringToKbsr s.mem (s.reg .r0) ws → es = ws.flatMap events →
    (∀ n, s.outputBudget = some n → n < es.length → exec i s = .next (s.failedAfter (es.take n))) ∧
    (s.accepts es.length →
      (∀ b rest, s.input = .byte b :: rest →
        ∃ u, PolledBy b s u ∧ u = { s with mem := u.mem, input := rest, consumed := s.consumed + 1 } ∧
          WalkPastKbsr i events es b u (exec i s)) ∧
      (∀ rest, s.input = .eof :: rest → exec i s = .next ((s.wrote es).inputEnded rest)) ∧
      (s.input = [] → exec i s = .fault .awaitingInput))

/-- IN writes IN_PROMPT, takes one byte, echoes it, puts it zero-extended in R0, sets cond (Z for 0x00 and else P) and
flushes; each stop leaves exactly what came before it (rules R178, R172, R204; IN_PROMPT is open, decision D8, and the flush
is decision D10, log entries 5 and 15). -/
def Obligations.InPromptsReadsAndEchoes : Prop :=
  ∀ (s : State) (prompt : List ConsoleEvent), prompt = s.params.inPrompt.map .byte →
    (∀ b rest, s.input = .byte b :: rest →
      ∃ t : State, t = { s with regs := t.regs, cond := t.cond, input := rest, consumed := s.consumed + 1 } ∧
        (t.reg .r0).toNat = b.toNat ∧ (∀ r, r ≠ .r0 → t.reg r = s.reg r) ∧
        t.cond = (if b.toNat = 0 then .z else .p) ∧
        (s.accepts (prompt.length + 2) → exec .inp s = .next (t.wrote (prompt ++ [.byte b, .flush]))) ∧
        (s.outputBudget = some (prompt.length + 1) → exec .inp s = .next (t.failedAfter (prompt ++ [.byte b]))) ∧
        (s.outputBudget = some prompt.length →
          exec .inp s = .next (State.failedAfter { s with input := rest, consumed := s.consumed + 1 } prompt))) ∧
    (∀ n, s.outputBudget = some n → n < prompt.length → exec .inp s = .next (s.failedAfter (prompt.take n))) ∧
    (∀ rest, s.input = .eof :: rest → s.accepts prompt.length →
      exec .inp s = .next ((s.wrote prompt).inputEnded rest)) ∧
    (s.input = [] → s.accepts prompt.length → exec .inp s = .fault .awaitingInput)

/-- HALT writes HALT_NOTICE and a flush and then stops with cause HALT and exit status 1, no register changed; an output
failure stops it instead (rules R180, R203; HALT_NOTICE is open, decision D9, log entry 5). -/
def Obligations.HaltNotifiesAndStops : Prop :=
  ∀ s : State, OutputResult (exec .halt s) (s.params.haltNotice.map .byte ++ [.flush])
    (fun t => { t with run := .stopped .halt 1 }) s

/-- TRAP runs the routine of its vector, and a vector outside 0x20-0x25 stops the block with UNKNOWN_TRAP and exit status 1
and no other effect (rules R170, R171, R181, R83; decision D23, log entry 15). -/
def Obligations.TrapRunsTheRoutineOfItsVector : Prop :=
  ∀ s : State,
    exec (.trap 0x20#8) s = exec .getc s ∧ exec (.trap 0x21#8) s = exec .out s ∧ exec (.trap 0x22#8) s = exec .puts s ∧
    exec (.trap 0x23#8) s = exec .inp s ∧ exec (.trap 0x24#8) s = exec .putsp s ∧ exec (.trap 0x25#8) s = exec .halt s ∧
    ∀ v : BitVec 8, v.toNat < 0x20 ∨ 0x25 < v.toNat →
      exec (.trap v) s = .next { s with run := .stopped (.unknownTrap v) 1 }

/-- TRAP words: bits [11:8] are ignored and the low byte names the routine (rules R83, R172; decision D2, log entry 11). -/
def Obligations.TrapWordsNameTheirRoutine : Prop :=
  ∀ w : Word, field w 15 12 = 15 →
    (field w 7 0 = 0x20 → decodeWord w = .getc) ∧ (field w 7 0 = 0x21 → decodeWord w = .out) ∧
    (field w 7 0 = 0x22 → decodeWord w = .puts) ∧ (field w 7 0 = 0x23 → decodeWord w = .inp) ∧
    (field w 7 0 = 0x24 → decodeWord w = .putsp) ∧ (field w 7 0 = 0x25 → decodeWord w = .halt)

/-- RTI and RES: every word of the two opcodes stops the block with RESERVED_OPCODE, exit status 1, and no other effect
(rules R77, R190, R191; decision D27). -/
def Obligations.ReservedOpcodesStop : Prop :=
  (∀ w : Word, field w 15 12 = 8 → decodeWord w = .rti) ∧ (∀ w : Word, field w 15 12 = 13 → decodeWord w = .res) ∧
  ∀ s : State, exec .rti s = .next { s with run := .stopped (.reservedOpcode 0x8#4) 1 } ∧
    exec .res s = .next { s with run := .stopped (.reservedOpcode 0xD#4) 1 }

/-! ### The program image (70_reset_and_hazards.md) -/

/-- The load writes the image's words at consecutive addresses from its origin, wrapping, and changes no other word, no
register, no cond and no pc (rule R233). -/
def Obligations.ImageLoadWritesItsWords : Prop :=
  ∀ (s : State) (origin : Word) (ws : List Word), s.Inv → ws.length ≤ 65536 →
    ∃ t, loadImage (imageBytes (origin :: ws)) s = .ok t ∧ t = { s with mem := t.mem } ∧ t.Inv ∧
      (∀ k (h : k < ws.length), t.mem.read (origin + BitVec.ofNat 16 k) = ws[k]) ∧
      (∀ a, (∀ k, k < ws.length → a ≠ origin + BitVec.ofNat 16 k) → t.mem.read a = s.mem.read a)

/-- The image's corner cases: an odd byte at the end is dropped, an origin alone loads nothing, fewer than two bytes are a
load error (rule R234; the load error is decision D16, log entry 17). -/
def Obligations.ImageLoadCornerCases : Prop :=
  (∀ (s : State) (origin : Word) (ws : List Word) (b : Byte),
    loadImage (imageBytes (origin :: ws) ++ [b]) s = loadImage (imageBytes (origin :: ws)) s) ∧
  (∀ (s : State) (origin : Word), loadImage (imageBytes [origin]) s = .ok s) ∧
  ∀ (s : State) (bytes : List Byte), bytes.length < 2 → loadImage bytes s = .error .noOrigin

/-- Loading the same image twice leaves what loading it once leaves (rule R234; vector S7). -/
def Obligations.RepeatedImageLoadChangesNothing : Prop :=
  ∀ (s t : State) (bytes : List Byte), s.Inv → loadImage bytes s = .ok t → loadImage bytes t = .ok t
end

