-- ==== Sys2Proof/Laws/Memory.lean ====
section
/-! SUPPORT. The laws of M: a read after a write, every operation keeps the canonical form, and equal readings make equal
memories (rules R31, R47, R55). -/

namespace Sys2Proof.Machine

/-- What a listed cell of a canonical memory satisfies, and the form of the rest. -/
theorem Memory.wfFrom_cons {lo k : Nat} {v : Word} {rest : Memory} :
    Memory.wfFrom lo ((k, v) :: rest) = true ↔
      lo ≤ k ∧ k < memWords ∧ v ≠ resetWord ∧ Memory.wfFrom (k + 1) rest = true := by
  simp [Memory.wfFrom, and_assoc]

theorem Memory.wfFrom_mono {lo lo' : Nat} {m : Memory} (h : Memory.wfFrom lo m = true) (hle : lo' ≤ lo) :
    Memory.wfFrom lo' m = true := by
  cases m with
  | nil => rfl
  | cons c rest =>
    obtain ⟨k, v⟩ := c
    rw [Memory.wfFrom_cons] at h ⊢
    exact ⟨by omega, h.2⟩

/-- No address below the first possible one is listed. -/
theorem Memory.readAt_of_lt {lo k : Nat} {m : Memory} (h : Memory.wfFrom lo m = true) (hk : k < lo) :
    m.readAt k = resetWord := by
  induction m generalizing lo with
  | nil => rfl
  | cons c rest ih =>
    obtain ⟨k', v⟩ := c
    rw [Memory.wfFrom_cons] at h
    have hne : k' ≠ k := by omega
    simp only [Memory.readAt, hne, if_false]
    exact ih h.2.2.2 (by omega)

theorem Memory.readAt_writeAt_same {lo k : Nat} {m : Memory} (v : Word) (h : Memory.wfFrom lo m = true) :
    (m.writeAt k v).readAt k = v := by
  induction m generalizing lo with
  | nil =>
    by_cases hv : v = resetWord <;> simp [Memory.writeAt, Memory.readAt, hv]
  | cons c rest ih =>
    obtain ⟨k', v'⟩ := c
    rw [Memory.wfFrom_cons] at h
    obtain ⟨-, -, -, hrest⟩ := h
    rcases Nat.lt_trichotomy k k' with hlt | heq | hgt
    · by_cases hv : v = resetWord
      · have hne : k' ≠ k := by omega
        simp [Memory.writeAt, Memory.readAt, hlt, hv, hne, Memory.readAt_of_lt hrest (show k < k' + 1 by omega)]
      · simp [Memory.writeAt, Memory.readAt, hlt, hv]
    · subst heq
      by_cases hv : v = resetWord
      · simp [Memory.writeAt, hv, Memory.readAt_of_lt hrest (Nat.lt_succ_self k)]
      · simp [Memory.writeAt, Memory.readAt, hv]
    · have h1 : ¬ k < k' := by omega
      have h2 : ¬ k = k' := by omega
      have h3 : ¬ k' = k := by omega
      simp [Memory.writeAt, Memory.readAt, h1, h2, h3, ih hrest]

theorem Memory.readAt_writeAt_ne {k j : Nat} (m : Memory) (v : Word) (hne : j ≠ k) :
    (m.writeAt k v).readAt j = m.readAt j := by
  have hkj : ¬ k = j := fun h => hne h.symm
  induction m with
  | nil => by_cases hv : v = resetWord <;> simp [Memory.writeAt, Memory.readAt, hv, hkj]
  | cons c rest ih =>
    obtain ⟨k', v'⟩ := c
    simp only [Memory.writeAt]
    split
    · split <;> simp [Memory.readAt, hkj]
    · split
      · rename_i heq
        subst heq
        split <;> simp [Memory.readAt, hkj]
      · simp [Memory.readAt, ih]

theorem Memory.wfFrom_writeAt {lo k : Nat} {m : Memory} (v : Word) (h : Memory.wfFrom lo m = true) (hlo : lo ≤ k)
    (hk : k < memWords) : Memory.wfFrom lo (m.writeAt k v) = true := by
  induction m generalizing lo with
  | nil =>
    by_cases hv : v = resetWord
    · simp [Memory.writeAt, hv, Memory.wfFrom]
    · simp [Memory.writeAt, hv, Memory.wfFrom, hlo, hk]
  | cons c rest ih =>
    obtain ⟨k', v'⟩ := c
    have hc := Memory.wfFrom_cons.mp h
    obtain ⟨h1, h2, h3, hrest⟩ := hc
    simp only [Memory.writeAt]
    split
    · split
      · exact h
      · rename_i hlt hv
        exact Memory.wfFrom_cons.mpr ⟨hlo, hk, hv, Memory.wfFrom_cons.mpr ⟨hlt, h2, h3, hrest⟩⟩
    · split
      · rename_i heq
        subst heq
        split
        · exact Memory.wfFrom_mono hrest (by omega)
        · rename_i hv
          exact Memory.wfFrom_cons.mpr ⟨hlo, hk, hv, hrest⟩
      · exact Memory.wfFrom_cons.mpr ⟨h1, h2, h3, ih hrest (by omega)⟩

/-! ### At word addresses -/

theorem memWords_eq : memWords = 65536 := rfl

theorem Memory.read_write_same {m : Memory} (a v : Word) (h : m.wf = true) : (m.write a v).read a = v :=
  Memory.readAt_writeAt_same v h

theorem Memory.read_write_ne (m : Memory) {a b : Word} (v : Word) (hne : b ≠ a) : (m.write a v).read b = m.read b :=
  Memory.readAt_writeAt_ne m v fun h => hne (BitVec.eq_of_toNat_eq h)

theorem Memory.read_write {m : Memory} (a b v : Word) (h : m.wf = true) :
    (m.write a v).read b = if b = a then v else m.read b := by
  by_cases hb : b = a
  · subst hb; simp [Memory.read_write_same _ _ h]
  · simp [hb, Memory.read_write_ne m v hb]

/-- A write keeps the canonical form. -/
theorem Memory.wf_write {m : Memory} (a v : Word) (h : m.wf = true) : (m.write a v).wf = true :=
  Memory.wfFrom_writeAt v h (Nat.zero_le _) (by have := a.isLt; rw [memWords_eq]; omega)

/-- The empty memory is canonical, and holds the reset word everywhere (rule R31). -/
theorem Memory.wf_nil : Memory.wf [] = true := rfl
@[simp] theorem Memory.read_nil (a : Word) : Memory.read [] a = resetWord := rfl

/-- Canonical memories that read alike are equal. -/
theorem Memory.eq_of_readAt {lo : Nat} {m m' : Memory} (h : Memory.wfFrom lo m = true) (h' : Memory.wfFrom lo m' = true)
    (hr : ∀ k, m.readAt k = m'.readAt k) : m = m' := by
  induction m generalizing lo m' with
  | nil =>
    cases m' with
    | nil => rfl
    | cons c rest =>
      obtain ⟨k, v⟩ := c
      have hv := (Memory.wfFrom_cons.mp h').2.2.1
      have := hr k
      simp only [Memory.readAt, if_true] at this
      exact absurd this.symm hv
  | cons c rest ih =>
    obtain ⟨k, v⟩ := c
    obtain ⟨hlo, -, hv, hrest⟩ := Memory.wfFrom_cons.mp h
    cases m' with
    | nil =>
      have := hr k
      simp only [Memory.readAt, if_true] at this
      exact absurd this hv
    | cons c' rest' =>
      obtain ⟨k', v'⟩ := c'
      obtain ⟨hlo', -, hv', hrest'⟩ := Memory.wfFrom_cons.mp h'
      have hkk : k = k' := by
        rcases Nat.lt_trichotomy k k' with hlt | heq | hgt
        · have hne : ¬ k' = k := by omega
          have := hr k
          simp only [Memory.readAt, if_true, hne, if_false,
            Memory.readAt_of_lt hrest' (show k < k' + 1 by omega)] at this
          exact absurd this hv
        · exact heq
        · have hne : ¬ k = k' := by omega
          have := hr k'
          simp only [Memory.readAt, if_true, hne, if_false,
            Memory.readAt_of_lt hrest (show k' < k + 1 by omega)] at this
          exact absurd this.symm hv'
      subst hkk
      have hvv : v = v' := by
        have := hr k
        simpa only [Memory.readAt, if_true] using this
      subst hvv
      have : rest = rest' := by
        refine ih hrest hrest' fun j => ?_
        by_cases hj : k = j
        · subst hj
          rw [Memory.readAt_of_lt hrest (Nat.lt_succ_self k), Memory.readAt_of_lt hrest' (Nat.lt_succ_self k)]
        · have := hr j
          simpa only [Memory.readAt, hj, if_false] using this
      rw [this]

theorem Memory.readAt_of_ge {lo k : Nat} {m : Memory} (h : Memory.wfFrom lo m = true) (hk : memWords ≤ k) :
    m.readAt k = resetWord := by
  induction m generalizing lo with
  | nil => rfl
  | cons c rest ih =>
    obtain ⟨k', v⟩ := c
    obtain ⟨-, hlt, -, hrest⟩ := Memory.wfFrom_cons.mp h
    have hne : ¬ k' = k := by omega
    simp only [Memory.readAt, hne, if_false]
    exact ih hrest

/-- Canonical memories that read alike at every word address are equal. -/
theorem Memory.ext_read {m m' : Memory} (h : m.wf = true) (h' : m'.wf = true) (hr : ∀ a, m.read a = m'.read a) :
    m = m' := by
  refine Memory.eq_of_readAt h h' fun k => ?_
  by_cases hk : k < 65536
  · have := hr (BitVec.ofNat 16 k)
    simpa only [Memory.read, BitVec.toNat_ofNat, Nat.mod_eq_of_lt hk] using this
  · rw [Memory.readAt_of_ge h (by rw [memWords_eq]; omega), Memory.readAt_of_ge h' (by rw [memWords_eq]; omega)]

/-! ### The poll's effect on memory (rule R46) -/

theorem State.pollByte_zero (s : State) : s.pollByte 0x00#8 = s.memWrite kbsrAddr 0x0000#16 := rfl

theorem State.pollByte_mem_wf {s : State} (b : Byte) (h : s.mem.wf = true) : (s.pollByte b).mem.wf = true := by
  unfold State.pollByte
  split
  · exact Memory.wf_write _ _ h
  · exact Memory.wf_write _ _ (Memory.wf_write _ _ h)

/-- A poll writes no word but KBSR and KBDR. -/
theorem State.pollByte_read_ne {s : State} (b : Byte) {a : Word} (hs : a ≠ kbsrAddr) (hd : a ≠ kbdrAddr) :
    (s.pollByte b).mem.read a = s.mem.read a := by
  unfold State.pollByte
  split
  · exact Memory.read_write_ne _ _ hs
  · exact (Memory.read_write_ne _ _ hs).trans (Memory.read_write_ne _ _ hd)

/-- KBSR after a poll. -/
theorem State.pollByte_read_kbsr {s : State} (b : Byte) (h : s.mem.wf = true) :
    (s.pollByte b).mem.read kbsrAddr =
      if b = 0x00#8 then 0x0000#16 else kbsrAfterByte s.params.kbsrReadyMode (s.mem.read kbsrAddr) := by
  unfold State.pollByte
  split
  · exact Memory.read_write_same _ _ h
  · exact Memory.read_write_same _ _ (Memory.wf_write _ _ h)

/-- KBDR after a poll: a zero byte leaves it unchanged. -/
theorem State.pollByte_read_kbdr {s : State} (b : Byte) (h : s.mem.wf = true) :
    (s.pollByte b).mem.read kbdrAddr = if b = 0x00#8 then s.mem.read kbdrAddr else zext b := by
  have hne : kbdrAddr ≠ kbsrAddr := by decide
  unfold State.pollByte
  split
  · exact Memory.read_write_ne _ _ hne
  · exact (Memory.read_write_ne _ _ hne).trans (Memory.read_write_same _ _ h)

end Sys2Proof.Machine
end

