-- ==== Sys2Proof/Laws/Boot.lean ====
section
/-! SUPPORT. The load keeps the canonical form of memory (rule R233). -/

namespace Sys2Proof.Machine

theorem loadWords_wf (ws : List Word) (a : Word) {m : Memory} (h : m.wf = true) : (loadWords ws a m).wf = true := by
  induction ws generalizing a m with
  | nil => exact h
  | cons w ws ih => exact ih _ (Memory.wf_write a w h)

/-- What a load that succeeds is: the words of the image after its origin, written from the origin on. -/
theorem loadImage_eq_ok {bytes : List Byte} {s t : State} (h : loadImage bytes s = .ok t) :
    ∃ origin ws, imageWords bytes = origin :: ws ∧ t = { s with mem := loadWords ws origin s.mem } := by
  unfold loadImage at h
  cases hw : imageWords bytes with
  | nil => rw [hw] at h; simp at h
  | cons origin ws => rw [hw] at h; exact ⟨origin, ws, rfl, by injection h with h; exact h.symm⟩

theorem loadImage_wf {bytes : List Byte} {s t : State} (h : loadImage bytes s = .ok t) (hw : s.mem.wf = true) :
    t.mem.wf = true := by
  obtain ⟨origin, ws, -, rfl⟩ := loadImage_eq_ok h
  exact loadWords_wf ws origin hw

end Sys2Proof.Machine
end

