-- ==== Sys2Proof/Laws/Decode.lean ====
section
/-! SUPPORT. The decoder by opcode: what a word with each opcode and form bit decodes to (rules R73, R74). -/

namespace Sys2Proof

@[simp] theorem Reg.ofBits_bits (r : Reg) : Reg.ofBits r.bits = r := by cases r <;> rfl

@[simp] theorem Reg.bits_ofBits (b : BitVec 3) : (Reg.ofBits b).bits = b := by
  revert b; decide

theorem decodeWord_br {w : Word} (h : opcodeOf w = 0x0#4) : decodeWord w = .br (field11to9 w) (pcOffset9Of w) := by
  simp [decodeWord, h]
theorem decodeWord_addImm {w : Word} (h : opcodeOf w = 0x1#4) (hm : immediateMode w = true) :
    decodeWord w = .addImm (regAt11 w) (regAt8 w) (imm5Of w) := by
  simp [decodeWord, h, hm]
theorem decodeWord_addReg {w : Word} (h : opcodeOf w = 0x1#4) (hm : immediateMode w = false) :
    decodeWord w = .addReg (regAt11 w) (regAt8 w) (regAt2 w) := by
  simp [decodeWord, h, hm]
theorem decodeWord_ld {w : Word} (h : opcodeOf w = 0x2#4) : decodeWord w = .ld (regAt11 w) (pcOffset9Of w) := by
  simp [decodeWord, h]
theorem decodeWord_st {w : Word} (h : opcodeOf w = 0x3#4) : decodeWord w = .st (regAt11 w) (pcOffset9Of w) := by
  simp [decodeWord, h]
theorem decodeWord_jsr {w : Word} (h : opcodeOf w = 0x4#4) (hl : longFlag w = true) :
    decodeWord w = .jsr (pcOffset11Of w) := by
  simp [decodeWord, h, hl]
theorem decodeWord_jsrr {w : Word} (h : opcodeOf w = 0x4#4) (hl : longFlag w = false) :
    decodeWord w = .jsrr (regAt8 w) := by
  simp [decodeWord, h, hl]
theorem decodeWord_andImm {w : Word} (h : opcodeOf w = 0x5#4) (hm : immediateMode w = true) :
    decodeWord w = .andImm (regAt11 w) (regAt8 w) (imm5Of w) := by
  simp [decodeWord, h, hm]
theorem decodeWord_andReg {w : Word} (h : opcodeOf w = 0x5#4) (hm : immediateMode w = false) :
    decodeWord w = .andReg (regAt11 w) (regAt8 w) (regAt2 w) := by
  simp [decodeWord, h, hm]
theorem decodeWord_ldr {w : Word} (h : opcodeOf w = 0x6#4) :
    decodeWord w = .ldr (regAt11 w) (regAt8 w) (offset6Of w) := by
  simp [decodeWord, h]
theorem decodeWord_str {w : Word} (h : opcodeOf w = 0x7#4) :
    decodeWord w = .str (regAt11 w) (regAt8 w) (offset6Of w) := by
  simp [decodeWord, h]
theorem decodeWord_rti {w : Word} (h : opcodeOf w = 0x8#4) : decodeWord w = .rti := by
  simp [decodeWord, h]
theorem decodeWord_not {w : Word} (h : opcodeOf w = 0x9#4) : decodeWord w = .not (regAt11 w) (regAt8 w) := by
  simp [decodeWord, h]
theorem decodeWord_ldi {w : Word} (h : opcodeOf w = 0xA#4) : decodeWord w = .ldi (regAt11 w) (pcOffset9Of w) := by
  simp [decodeWord, h]
theorem decodeWord_sti {w : Word} (h : opcodeOf w = 0xB#4) : decodeWord w = .sti (regAt11 w) (pcOffset9Of w) := by
  simp [decodeWord, h]
theorem decodeWord_jmp {w : Word} (h : opcodeOf w = 0xC#4) : decodeWord w = decodeJmp (regAt8 w) := by
  simp [decodeWord, h]
theorem decodeWord_res {w : Word} (h : opcodeOf w = 0xD#4) : decodeWord w = .res := by
  simp [decodeWord, h]
theorem decodeWord_lea {w : Word} (h : opcodeOf w = 0xE#4) : decodeWord w = .lea (regAt11 w) (pcOffset9Of w) := by
  simp [decodeWord, h]
theorem decodeWord_trap {w : Word} (h : opcodeOf w = 0xF#4) : decodeWord w = decodeTrap (trapvect8Of w) := by
  simp [decodeWord, h]

end Sys2Proof
end

