-- ==== Sys2Proof/Laws/Flags.lean ====
section
/-! SUPPORT. The three cases of `setcc` and the bits of its result (rules R24, R25), and the values of the extensions
(rule R12). -/

namespace Sys2Proof.Machine

theorem condOf_zero : condOf 0x0000#16 = .z := rfl

theorem condOf_neg {v : Word} (h : v.msb = true) : condOf v = .n := by
  have hne : v ≠ 0x0000#16 := by rintro rfl; simp at h
  simp [condOf, hne, h]

theorem condOf_pos {v : Word} (hne : v ≠ 0x0000#16) (h : v.msb = false) : condOf v = .p := by
  simp [condOf, hne, h]

/-- No computed code is NONE. -/
theorem condOf_ne_none (v : Word) : condOf v ≠ .none := by
  unfold condOf
  split
  · decide
  · split <;> decide

theorem addWrap_toNat (a b : Word) : (addWrap a b).toNat = (a.toNat + b.toNat) % 65536 := by
  simp [addWrap, BitVec.toNat_add]

theorem zext_toNat (b : Byte) : (zext b).toNat = b.toNat := by
  simp only [zext, BitVec.toNat_append]; simp

theorem zext_eq_zero_iff (b : Byte) : zext b = 0x0000#16 ↔ b = 0x00#8 := by
  constructor
  · intro h
    have := congrArg BitVec.toNat h
    rw [zext_toNat] at this
    exact BitVec.eq_of_toNat_eq (by simpa using this)
  · rintro rfl; rfl

/-- A zero-extended byte is never negative (rule R178). -/
theorem zext_msb (b : Byte) : (zext b).msb = false := by
  rw [BitVec.msb_eq_decide, zext_toNat]
  have := b.isLt
  simp; omega

end Sys2Proof.Machine
end

