-- ==== Sys2Proof/Laws/State.lean ====
section
/-! SUPPORT. What each named update of the state does to each field, true by unfolding; and reading a register after
writing one. With these no proof unfolds a record update. -/

namespace Sys2Proof.Machine

/-! ### One lemma per field per update -/

@[simp] theorem State.setReg_regs (s : State) (r : Reg) (v : Word) : (s.setReg r v).regs = s.regs.set r v := rfl
@[simp] theorem State.setReg_pc (s : State) (r : Reg) (v : Word) : (s.setReg r v).pc = s.pc := rfl
@[simp] theorem State.setReg_cond (s : State) (r : Reg) (v : Word) : (s.setReg r v).cond = s.cond := rfl
@[simp] theorem State.setReg_mem (s : State) (r : Reg) (v : Word) : (s.setReg r v).mem = s.mem := rfl
@[simp] theorem State.setReg_run (s : State) (r : Reg) (v : Word) : (s.setReg r v).run = s.run := rfl
@[simp] theorem State.setReg_input (s : State) (r : Reg) (v : Word) : (s.setReg r v).input = s.input := rfl
@[simp] theorem State.setReg_consumed (s : State) (r : Reg) (v : Word) : (s.setReg r v).consumed = s.consumed := rfl
@[simp] theorem State.setReg_output (s : State) (r : Reg) (v : Word) : (s.setReg r v).output = s.output := rfl
@[simp] theorem State.setReg_outputBudget (s : State) (r : Reg) (v : Word) : (s.setReg r v).outputBudget = s.outputBudget := rfl
@[simp] theorem State.setReg_params (s : State) (r : Reg) (v : Word) : (s.setReg r v).params = s.params := rfl

@[simp] theorem State.setPc_regs (s : State) (v : Word) : (s.setPc v).regs = s.regs := rfl
@[simp] theorem State.setPc_pc (s : State) (v : Word) : (s.setPc v).pc = v := rfl
@[simp] theorem State.setPc_cond (s : State) (v : Word) : (s.setPc v).cond = s.cond := rfl
@[simp] theorem State.setPc_mem (s : State) (v : Word) : (s.setPc v).mem = s.mem := rfl
@[simp] theorem State.setPc_run (s : State) (v : Word) : (s.setPc v).run = s.run := rfl
@[simp] theorem State.setPc_input (s : State) (v : Word) : (s.setPc v).input = s.input := rfl
@[simp] theorem State.setPc_consumed (s : State) (v : Word) : (s.setPc v).consumed = s.consumed := rfl
@[simp] theorem State.setPc_output (s : State) (v : Word) : (s.setPc v).output = s.output := rfl
@[simp] theorem State.setPc_outputBudget (s : State) (v : Word) : (s.setPc v).outputBudget = s.outputBudget := rfl
@[simp] theorem State.setPc_params (s : State) (v : Word) : (s.setPc v).params = s.params := rfl

@[simp] theorem State.setcc_regs (s : State) (v : Word) : (s.setcc v).regs = s.regs := rfl
@[simp] theorem State.setcc_pc (s : State) (v : Word) : (s.setcc v).pc = s.pc := rfl
@[simp] theorem State.setcc_cond (s : State) (v : Word) : (s.setcc v).cond = condOf v := rfl
@[simp] theorem State.setcc_mem (s : State) (v : Word) : (s.setcc v).mem = s.mem := rfl
@[simp] theorem State.setcc_run (s : State) (v : Word) : (s.setcc v).run = s.run := rfl
@[simp] theorem State.setcc_input (s : State) (v : Word) : (s.setcc v).input = s.input := rfl
@[simp] theorem State.setcc_consumed (s : State) (v : Word) : (s.setcc v).consumed = s.consumed := rfl
@[simp] theorem State.setcc_output (s : State) (v : Word) : (s.setcc v).output = s.output := rfl
@[simp] theorem State.setcc_outputBudget (s : State) (v : Word) : (s.setcc v).outputBudget = s.outputBudget := rfl
@[simp] theorem State.setcc_params (s : State) (v : Word) : (s.setcc v).params = s.params := rfl

@[simp] theorem State.writeResult_regs (s : State) (r : Reg) (v : Word) : (s.writeResult r v).regs = s.regs.set r v := rfl
@[simp] theorem State.writeResult_pc (s : State) (r : Reg) (v : Word) : (s.writeResult r v).pc = s.pc := rfl
@[simp] theorem State.writeResult_cond (s : State) (r : Reg) (v : Word) : (s.writeResult r v).cond = condOf v := rfl
@[simp] theorem State.writeResult_mem (s : State) (r : Reg) (v : Word) : (s.writeResult r v).mem = s.mem := rfl
@[simp] theorem State.writeResult_run (s : State) (r : Reg) (v : Word) : (s.writeResult r v).run = s.run := rfl
@[simp] theorem State.writeResult_input (s : State) (r : Reg) (v : Word) : (s.writeResult r v).input = s.input := rfl
@[simp] theorem State.writeResult_consumed (s : State) (r : Reg) (v : Word) : (s.writeResult r v).consumed = s.consumed := rfl
@[simp] theorem State.writeResult_output (s : State) (r : Reg) (v : Word) : (s.writeResult r v).output = s.output := rfl
@[simp] theorem State.writeResult_outputBudget (s : State) (r : Reg) (v : Word) : (s.writeResult r v).outputBudget = s.outputBudget := rfl
@[simp] theorem State.writeResult_params (s : State) (r : Reg) (v : Word) : (s.writeResult r v).params = s.params := rfl

@[simp] theorem State.memWrite_regs (s : State) (a v : Word) : (s.memWrite a v).regs = s.regs := rfl
@[simp] theorem State.memWrite_pc (s : State) (a v : Word) : (s.memWrite a v).pc = s.pc := rfl
@[simp] theorem State.memWrite_cond (s : State) (a v : Word) : (s.memWrite a v).cond = s.cond := rfl
@[simp] theorem State.memWrite_mem (s : State) (a v : Word) : (s.memWrite a v).mem = s.mem.write a v := rfl
@[simp] theorem State.memWrite_run (s : State) (a v : Word) : (s.memWrite a v).run = s.run := rfl
@[simp] theorem State.memWrite_input (s : State) (a v : Word) : (s.memWrite a v).input = s.input := rfl
@[simp] theorem State.memWrite_consumed (s : State) (a v : Word) : (s.memWrite a v).consumed = s.consumed := rfl
@[simp] theorem State.memWrite_output (s : State) (a v : Word) : (s.memWrite a v).output = s.output := rfl
@[simp] theorem State.memWrite_outputBudget (s : State) (a v : Word) : (s.memWrite a v).outputBudget = s.outputBudget := rfl
@[simp] theorem State.memWrite_params (s : State) (a v : Word) : (s.memWrite a v).params = s.params := rfl

@[simp] theorem State.raiseStop_regs (s : State) (c : StopCause) : (s.raiseStop c).regs = s.regs := rfl
@[simp] theorem State.raiseStop_pc (s : State) (c : StopCause) : (s.raiseStop c).pc = s.pc := rfl
@[simp] theorem State.raiseStop_cond (s : State) (c : StopCause) : (s.raiseStop c).cond = s.cond := rfl
@[simp] theorem State.raiseStop_mem (s : State) (c : StopCause) : (s.raiseStop c).mem = s.mem := rfl
@[simp] theorem State.raiseStop_run (s : State) (c : StopCause) : (s.raiseStop c).run = .stopped c (exitStatus s.params c) := rfl
@[simp] theorem State.raiseStop_input (s : State) (c : StopCause) : (s.raiseStop c).input = s.input := rfl
@[simp] theorem State.raiseStop_consumed (s : State) (c : StopCause) : (s.raiseStop c).consumed = s.consumed := rfl
@[simp] theorem State.raiseStop_output (s : State) (c : StopCause) : (s.raiseStop c).output = s.output := rfl
@[simp] theorem State.raiseStop_outputBudget (s : State) (c : StopCause) : (s.raiseStop c).outputBudget = s.outputBudget := rfl
@[simp] theorem State.raiseStop_params (s : State) (c : StopCause) : (s.raiseStop c).params = s.params := rfl

/-! ### The poll touches memory only (rule R46) -/

@[simp] theorem State.pollByte_regs (s : State) (b : Byte) : (s.pollByte b).regs = s.regs := by
  unfold State.pollByte; split <;> rfl
@[simp] theorem State.pollByte_pc (s : State) (b : Byte) : (s.pollByte b).pc = s.pc := by
  unfold State.pollByte; split <;> rfl
@[simp] theorem State.pollByte_cond (s : State) (b : Byte) : (s.pollByte b).cond = s.cond := by
  unfold State.pollByte; split <;> rfl
@[simp] theorem State.pollByte_run (s : State) (b : Byte) : (s.pollByte b).run = s.run := by
  unfold State.pollByte; split <;> rfl
@[simp] theorem State.pollByte_input (s : State) (b : Byte) : (s.pollByte b).input = s.input := by
  unfold State.pollByte; split <;> rfl
@[simp] theorem State.pollByte_consumed (s : State) (b : Byte) : (s.pollByte b).consumed = s.consumed := by
  unfold State.pollByte; split <;> rfl
@[simp] theorem State.pollByte_output (s : State) (b : Byte) : (s.pollByte b).output = s.output := by
  unfold State.pollByte; split <;> rfl
@[simp] theorem State.pollByte_outputBudget (s : State) (b : Byte) : (s.pollByte b).outputBudget = s.outputBudget := by
  unfold State.pollByte; split <;> rfl
@[simp] theorem State.pollByte_params (s : State) (b : Byte) : (s.pollByte b).params = s.params := by
  unfold State.pollByte; split <;> rfl

/-! ### Registers (rules R20, R21) -/

@[simp] theorem RegFile.get_set_same (f : RegFile) (r : Reg) (v : Word) : (f.set r v).get r = v := by
  cases r <;> rfl

@[simp] theorem RegFile.get_set_ne (f : RegFile) {r r' : Reg} (v : Word) (h : r' ≠ r) :
    (f.set r v).get r' = f.get r' := by
  cases r <;> cases r' <;> first | rfl | exact absurd rfl h

theorem RegFile.get_set (f : RegFile) (r r' : Reg) (v : Word) :
    (f.set r v).get r' = if r' = r then v else f.get r' := by
  by_cases h : r' = r
  · simp [h]
  · simp [h]

/-- Two register files that read alike are equal. -/
theorem RegFile.ext_get {f g : RegFile} (h : ∀ r, f.get r = g.get r) : f = g := by
  have h0 := h .r0; have h1 := h .r1; have h2 := h .r2; have h3 := h .r3
  have h4 := h .r4; have h5 := h .r5; have h6 := h .r6; have h7 := h .r7
  cases f; cases g
  simp_all [RegFile.get]

@[simp] theorem State.reg_setReg_same (s : State) (r : Reg) (v : Word) : (s.setReg r v).reg r = v := by
  simp [State.reg]

@[simp] theorem State.reg_setReg_ne (s : State) {r r' : Reg} (v : Word) (h : r' ≠ r) :
    (s.setReg r v).reg r' = s.reg r' := by
  simp [State.reg, h]

@[simp] theorem State.reg_writeResult_same (s : State) (r : Reg) (v : Word) : (s.writeResult r v).reg r = v := by
  simp [State.reg]

@[simp] theorem State.reg_writeResult_ne (s : State) {r r' : Reg} (v : Word) (h : r' ≠ r) :
    (s.writeResult r v).reg r' = s.reg r' := by
  simp [State.reg, h]

@[simp] theorem State.reg_setPc (s : State) (v : Word) (r : Reg) : (s.setPc v).reg r = s.reg r := rfl
@[simp] theorem State.reg_setcc (s : State) (v : Word) (r : Reg) : (s.setcc v).reg r = s.reg r := rfl
@[simp] theorem State.reg_memWrite (s : State) (a v : Word) (r : Reg) : (s.memWrite a v).reg r = s.reg r := rfl
@[simp] theorem State.reg_raiseStop (s : State) (c : StopCause) (r : Reg) : (s.raiseStop c).reg r = s.reg r := rfl
@[simp] theorem State.reg_pollByte (s : State) (b : Byte) (r : Reg) : (s.pollByte b).reg r = s.reg r := by
  simp [State.reg]

end Sys2Proof.Machine
end

