-- ==== Sys2Proof/Laws/Ops.lean ====
section
/-! SUPPORT. What each shared operation can do, said once: the sequencing, the console ports, MemRead, the fetch. -/

namespace Sys2Proof.Machine

/-! ### Sequencing -/

@[simp] theorem Flow.andThen_ok {α β : Type} (a : α) (s : State) (k : α → State → Flow β) :
    (Flow.ok a s).andThen k = k a s := rfl
@[simp] theorem Flow.andThen_stop {α β : Type} (s : State) (k : α → State → Flow β) :
    (Flow.stop s : Flow α).andThen k = .stop s := rfl
@[simp] theorem Flow.andThen_stuck {α β : Type} (f : Fault) (k : α → State → Flow β) :
    (Flow.stuck f : Flow α).andThen k = .stuck f := rfl
@[simp] theorem Flow.finish_ok {α : Type} (a : α) (s : State) (k : α → State → State) :
    (Flow.ok a s).finish k = .next (k a s) := rfl
@[simp] theorem Flow.finish_stop {α : Type} (s : State) (k : α → State → State) :
    (Flow.stop s : Flow α).finish k = .next s := rfl
@[simp] theorem Flow.finish_stuck {α : Type} (f : Fault) (k : α → State → State) :
    (Flow.stuck f : Flow α).finish k = .fault f := rfl
@[simp] theorem Written.andThen_done (s : State) (k : State → Written) : (Written.done s).andThen k = k s := rfl
@[simp] theorem Written.andThen_failed (s : State) (k : State → Written) :
    (Written.failed s).andThen k = .failed s := rfl
@[simp] theorem Written.flow_done (s : State) : (Written.done s).flow = .ok () s := rfl
@[simp] theorem Written.flow_failed (s : State) : (Written.failed s).flow = .stop s := rfl
@[simp] theorem Written.state_done (s : State) (k : State → State) : (Written.done s).state k = k s := rfl
@[simp] theorem Written.state_failed (s : State) (k : State → State) : (Written.failed s).state k = s := rfl

/-- A finished flow that has a next state either went on to its end or raised a stop. -/
theorem Flow.finish_eq_next {α : Type} {x : Flow α} {k : α → State → State} {t : State}
    (h : x.finish k = .next t) : (∃ a s, x = .ok a s ∧ t = k a s) ∨ x = .stop t := by
  cases x with
  | ok a s => exact .inl ⟨a, s, rfl, by simpa using h.symm⟩
  | stop s => exact .inr (by simpa using h)
  | stuck f => simp at h

/-- A finished flow is never refused. -/
theorem Flow.finish_ne_refused {α : Type} (x : Flow α) (k : α → State → State) (r : Refusal) :
    x.finish k ≠ .refused r := by
  cases x <;> simp

/-! ### Output requests (rules R8, R172) -/

theorem emit_never {s : State} (e : ConsoleEvent) (h : s.outputBudget = none) :
    emit e s = .done { s with output := s.output ++ [e] } := by
  simp [emit, h]

theorem emit_fail {s : State} (e : ConsoleEvent) (h : s.outputBudget = some 0) :
    emit e s = .failed (s.raiseStop (.ioFailure .outputFail)) := by
  simp [emit, h]

theorem emit_budget {s : State} (e : ConsoleEvent) {k : Nat} (h : s.outputBudget = some (k + 1)) :
    emit e s = .done { s with output := s.output ++ [e], outputBudget := some k } := by
  simp [emit, h]

/-- An output request changes the output and the budget where the host accepts it, and else raises OUTPUT_FAIL. -/
theorem emit_cases (e : ConsoleEvent) (s : State) :
    (∃ budget, emit e s = .done { s with output := s.output ++ [e], outputBudget := budget }) ∨
      (s.outputBudget = some 0 ∧ emit e s = .failed (s.raiseStop (.ioFailure .outputFail))) := by
  rcases h : s.outputBudget with _ | _ | k
  · exact .inl ⟨s.outputBudget, emit_never e h⟩
  · exact .inr ⟨rfl, emit_fail e h⟩
  · exact .inl ⟨some k, emit_budget e h⟩

/-- What a sequence of output requests leaves alone: all but `output`, `outputBudget`, and `run` where one fails. -/
structure Written.Frame (s : State) (t : State) : Prop where
  regs : t.regs = s.regs
  pc : t.pc = s.pc
  cond : t.cond = s.cond
  mem : t.mem = s.mem
  input : t.input = s.input
  consumed : t.consumed = s.consumed
  params : t.params = s.params
  output : ∃ es, t.output = s.output ++ es

theorem Written.Frame.refl (s : State) : Written.Frame s s :=
  ⟨rfl, rfl, rfl, rfl, rfl, rfl, rfl, [], by simp⟩

theorem Written.Frame.trans {s t u : State} (h : Written.Frame s t) (h' : Written.Frame t u) : Written.Frame s u := by
  obtain ⟨es, he⟩ := h.output
  obtain ⟨es', he'⟩ := h'.output
  exact ⟨h'.regs.trans h.regs, h'.pc.trans h.pc, h'.cond.trans h.cond, h'.mem.trans h.mem, h'.input.trans h.input,
    h'.consumed.trans h.consumed, h'.params.trans h.params, es ++ es', by rw [he', he, List.append_assoc]⟩

/-- Requests that frame `s`: accepted, `run` as it was; or failed, `run` stopped with OUTPUT_FAIL. -/
def Written.Framed (s : State) : Written → Prop
  | .done t => Written.Frame s t ∧ t.run = s.run
  | .failed t => Written.Frame s t ∧ t.run = .stopped (.ioFailure .outputFail) s.params.ioFailStatus

theorem emit_framed (e : ConsoleEvent) (s : State) : (emit e s).Framed s := by
  rcases emit_cases e s with ⟨budget, h⟩ | ⟨-, h⟩
  · rw [h]; exact ⟨⟨rfl, rfl, rfl, rfl, rfl, rfl, rfl, [e], rfl⟩, rfl⟩
  · rw [h]; exact ⟨⟨rfl, rfl, rfl, rfl, rfl, rfl, rfl, [], by simp⟩, rfl⟩

theorem Written.Framed.andThen {s : State} {x : Written} {k : State → Written} (hx : x.Framed s)
    (hk : ∀ t, (k t).Framed t) : (x.andThen k).Framed s := by
  cases x with
  | failed t => exact hx
  | done t =>
    obtain ⟨hf, hr⟩ := hx
    have := hk t
    simp only [Written.andThen_done]
    cases hkt : k t with
    | done u => rw [hkt] at this; exact ⟨hf.trans this.1, this.2.trans hr⟩
    | failed u => rw [hkt] at this; exact ⟨hf.trans this.1, by rw [this.2, hf.params]⟩

theorem consoleOutAll_framed (bs : List Byte) (s : State) : (consoleOutAll bs s).Framed s := by
  induction bs generalizing s with
  | nil => exact ⟨.refl s, rfl⟩
  | cons b bs ih => exact (emit_framed (.byte b) s).andThen ih

/-! ### ConsoleIn (rules R8, R51) -/

theorem consoleIn_nil {s : State} (h : s.input = []) : consoleIn s = .stuck .awaitingInput := by
  simp [consoleIn, h]

theorem consoleIn_byte {s : State} {b : Byte} {rest : List ConsoleAnswer} (h : s.input = .byte b :: rest) :
    consoleIn s = .ok b { s with input := rest, consumed := s.consumed + 1 } := by
  simp [consoleIn, h]

theorem consoleIn_eof {s : State} {rest : List ConsoleAnswer} (h : s.input = .eof :: rest) :
    consoleIn s = .stop ({ s with input := rest }.raiseStop (.ioFailure .inputEnd)) := by
  simp [consoleIn, h]

/-! ### MemRead (rule R46) -/

/-- A read anywhere but KBSR_ADDR has no effect (rule R52). -/
theorem memRead_plain {a : Word} {s : State} (h : a ≠ kbsrAddr) : memRead a s = .ok (s.mem.read a) s := by
  simp [memRead, h]

theorem memRead_kbsr (s : State) :
    memRead kbsrAddr s =
      (consoleIn s).andThen fun b s' => .ok ((s'.pollByte b).mem.read kbsrAddr) (s'.pollByte b) := by
  simp [memRead]

/-- What a completed MemRead did: nothing, or one poll. -/
theorem memRead_eq_ok {a : Word} {s t : State} {w : Word} (h : memRead a s = .ok w t) :
    (a ≠ kbsrAddr ∧ w = s.mem.read a ∧ t = s) ∨
      (a = kbsrAddr ∧ ∃ b rest, s.input = .byte b :: rest ∧
        t = State.pollByte { s with input := rest, consumed := s.consumed + 1 } b ∧ w = t.mem.read kbsrAddr) := by
  by_cases ha : a = kbsrAddr
  · subst ha
    right
    rw [memRead_kbsr] at h
    rcases hi : s.input with _ | ⟨⟨b⟩ | _, rest⟩
    · simp [consoleIn_nil hi] at h
    · rw [consoleIn_byte hi, Flow.andThen_ok] at h
      injection h with hw ht
      exact ⟨rfl, b, rest, rfl, ht.symm, by rw [← hw, ← ht]⟩
    · simp [consoleIn_eof hi] at h
  · left
    rw [memRead_plain ha] at h
    injection h with hw ht
    exact ⟨ha, hw.symm, ht.symm⟩

/-- A MemRead stops only at KBSR_ADDR with the input ended, and changes nothing but `input` and `run`. -/
theorem memRead_eq_stop {a : Word} {s t : State} (h : memRead a s = .stop t) :
    a = kbsrAddr ∧ ∃ rest, s.input = .eof :: rest ∧ t = { s with input := rest }.raiseStop (.ioFailure .inputEnd) := by
  by_cases ha : a = kbsrAddr
  · subst ha
    rw [memRead_kbsr] at h
    rcases hi : s.input with _ | ⟨⟨b⟩ | _, rest⟩
    · simp [consoleIn_nil hi] at h
    · simp [consoleIn_byte hi] at h
    · rw [consoleIn_eof hi, Flow.andThen_stop] at h
      injection h with ht
      exact ⟨rfl, rest, rfl, ht.symm⟩
  · simp [memRead_plain ha] at h

/-- A MemRead holds only at KBSR_ADDR with no answer from the host. -/
theorem memRead_eq_stuck {a : Word} {s : State} {f : Fault} (h : memRead a s = .stuck f) :
    a = kbsrAddr ∧ s.input = [] ∧ f = .awaitingInput := by
  by_cases ha : a = kbsrAddr
  · subst ha
    rw [memRead_kbsr] at h
    rcases hi : s.input with _ | ⟨⟨b⟩ | _, rest⟩
    · rw [consoleIn_nil hi, Flow.andThen_stuck] at h
      injection h with hf
      exact ⟨rfl, rfl, hf.symm⟩
    · simp [consoleIn_byte hi] at h
    · simp [consoleIn_eof hi] at h
  · simp [memRead_plain ha] at h

/-- What a completed MemRead leaves alone, and that it keeps the canonical form of memory. -/
theorem memRead_ok_frame {a : Word} {s t : State} {w : Word} (h : memRead a s = .ok w t) :
    t.regs = s.regs ∧ t.pc = s.pc ∧ t.cond = s.cond ∧ t.run = s.run ∧ t.output = s.output ∧
      t.outputBudget = s.outputBudget ∧ t.params = s.params ∧ (s.mem.wf = true → t.mem.wf = true) ∧
      (∀ b, b ≠ kbsrAddr → b ≠ kbdrAddr → t.mem.read b = s.mem.read b) := by
  rcases memRead_eq_ok h with ⟨-, -, rfl⟩ | ⟨-, b, rest, -, rfl, -⟩
  · exact ⟨rfl, rfl, rfl, rfl, rfl, rfl, rfl, id, fun _ _ _ => rfl⟩
  · refine ⟨by simp, by simp, by simp, by simp, by simp, by simp, by simp, ?_, ?_⟩
    · exact State.pollByte_mem_wf (s := { s with input := rest, consumed := s.consumed + 1 }) b
    · exact fun c hs hd => State.pollByte_read_ne (s := { s with input := rest, consumed := s.consumed + 1 }) b hs hd

/-! ### The fetch (rule R80) -/

/-- Away from KBSR_ADDR the fetch reads the word at pc and increments pc. -/
theorem fetch_plain {s : State} (h : s.pc ≠ kbsrAddr) :
    fetch s = .ok (s.mem.read s.pc) (s.setPc (addWrap s.pc 0x0001#16)) := by
  simp [fetch, memRead_plain h]

end Sys2Proof.Machine
end

