-- ==== Sys2Proof/Laws/PerInstr.lean ====
section
/-! SUPPORT. Two facts about every instruction as syntax, made one constructor at a time: its word carries the opcode of
rule R74, and sets no bit that rule R76 lists as unused (rule R84). -/

namespace Sys2Proof.Laws.OpcodeNibble

/-- instr[15:12] of the encoded word is the opcode of rule R74. -/
def Statement (i : Instr) : Prop := opcodeOf (encode i) = i.opcode

/-- Four bits that agree one by one are equal. -/
theorem of_bits {w : Word} {op : BitVec 4} (h : ∀ i, i < 4 → w.getLsbD (12 + i) = op.getLsbD i) : opcodeOf w = op :=
  BitVec.eq_of_getLsbD_eq fun i hi => by simpa [opcodeOf, hi] using h i hi

theorem addReg (d : Reg) (s : Reg) (t : Reg) : Statement (.addReg d s t) := of_bits fun i hi => by
  simp only [encode, Instr.opcode, BitVec.getLsbD_append]
  interval_cases i <;> simp
theorem addImm (d : Reg) (s : Reg) (i : BitVec 5) : Statement (.addImm d s i) := of_bits fun i hi => by
  simp only [encode, Instr.opcode, BitVec.getLsbD_append]
  interval_cases i <;> simp
theorem andReg (d : Reg) (s : Reg) (t : Reg) : Statement (.andReg d s t) := of_bits fun i hi => by
  simp only [encode, Instr.opcode, BitVec.getLsbD_append]
  interval_cases i <;> simp
theorem andImm (d : Reg) (s : Reg) (i : BitVec 5) : Statement (.andImm d s i) := of_bits fun i hi => by
  simp only [encode, Instr.opcode, BitVec.getLsbD_append]
  interval_cases i <;> simp
theorem not (d : Reg) (s : Reg) : Statement (.not d s) := of_bits fun i hi => by
  simp only [encode, Instr.opcode, BitVec.getLsbD_append]
  interval_cases i <;> simp
theorem br (n : BitVec 3) (o : BitVec 9) : Statement (.br n o) := of_bits fun i hi => by
  simp only [encode, Instr.opcode, BitVec.getLsbD_append]
  interval_cases i <;> simp
theorem ld (d : Reg) (o : BitVec 9) : Statement (.ld d o) := of_bits fun i hi => by
  simp only [encode, Instr.opcode, BitVec.getLsbD_append]
  interval_cases i <;> simp
theorem st (s : Reg) (o : BitVec 9) : Statement (.st s o) := of_bits fun i hi => by
  simp only [encode, Instr.opcode, BitVec.getLsbD_append]
  interval_cases i <;> simp
theorem jsr (o : BitVec 11) : Statement (.jsr o) := of_bits fun i hi => by
  simp only [encode, Instr.opcode, BitVec.getLsbD_append]
  interval_cases i <;> simp
theorem jsrr (b : Reg) : Statement (.jsrr b) := of_bits fun i hi => by
  simp only [encode, Instr.opcode, BitVec.getLsbD_append]
  interval_cases i <;> simp
theorem ldr (d : Reg) (b : Reg) (o : BitVec 6) : Statement (.ldr d b o) := of_bits fun i hi => by
  simp only [encode, Instr.opcode, BitVec.getLsbD_append]
  interval_cases i <;> simp
theorem str (s : Reg) (b : Reg) (o : BitVec 6) : Statement (.str s b o) := of_bits fun i hi => by
  simp only [encode, Instr.opcode, BitVec.getLsbD_append]
  interval_cases i <;> simp
theorem rti : Statement .rti := rfl
theorem ldi (d : Reg) (o : BitVec 9) : Statement (.ldi d o) := of_bits fun i hi => by
  simp only [encode, Instr.opcode, BitVec.getLsbD_append]
  interval_cases i <;> simp
theorem sti (s : Reg) (o : BitVec 9) : Statement (.sti s o) := of_bits fun i hi => by
  simp only [encode, Instr.opcode, BitVec.getLsbD_append]
  interval_cases i <;> simp
theorem jmp (b : Reg) : Statement (.jmp b) := of_bits fun i hi => by
  simp only [encode, Instr.opcode, BitVec.getLsbD_append]
  interval_cases i <;> simp
theorem ret : Statement .ret := rfl
theorem res : Statement .res := rfl
theorem lea (d : Reg) (o : BitVec 9) : Statement (.lea d o) := of_bits fun i hi => by
  simp only [encode, Instr.opcode, BitVec.getLsbD_append]
  interval_cases i <;> simp
theorem trap (v : BitVec 8) : Statement (.trap v) := of_bits fun i hi => by
  simp only [encode, Instr.opcode, BitVec.getLsbD_append]
  interval_cases i <;> simp
theorem getc : Statement .getc := rfl
theorem out : Statement .out := rfl
theorem puts : Statement .puts := rfl
theorem inp : Statement .inp := rfl
theorem putsp : Statement .putsp := rfl
theorem halt : Statement .halt := rfl

end Sys2Proof.Laws.OpcodeNibble

namespace Sys2Proof.Laws.EncodeUsed

/-- The encoded word sets only used bits. -/
def Statement (i : Instr) : Prop := encode i &&& usedBits (encode i) = encode i

/-- A word all of whose bits are used. -/
theorem of_all {w : Word} (h : usedBits w = 0xFFFF#16) : w &&& usedBits w = w := by
  rw [h]; exact BitVec.and_allOnes (x := w)

theorem addReg (d : Reg) (s : Reg) (t : Reg) : Statement (.addReg d s t) := by
  have ho : opcodeOf (encode (.addReg d s t)) = 0x1#4 := OpcodeNibble.addReg d s t
  have hm : immediateMode (encode (.addReg d s t)) = false := by
    simp only [immediateMode, encode, BitVec.getLsbD_append]; simp
  unfold Statement
  rw [show usedBits (encode (.addReg d s t)) = _ from by simp only [usedBits, ho, hm]; rfl]
  refine BitVec.eq_of_getLsbD_eq fun i hi => ?_
  simp only [encode, BitVec.getLsbD_append, BitVec.getLsbD_and]
  interval_cases i <;> simp
theorem addImm (d : Reg) (s : Reg) (i : BitVec 5) : Statement (.addImm d s i) := by
  have ho : opcodeOf (encode (.addImm d s i)) = 0x1#4 := OpcodeNibble.addImm d s i
  have hm : immediateMode (encode (.addImm d s i)) = true := by
    simp only [immediateMode, encode, BitVec.getLsbD_append]; simp
  exact of_all (by simp [usedBits, ho, hm])
theorem andReg (d : Reg) (s : Reg) (t : Reg) : Statement (.andReg d s t) := by
  have ho : opcodeOf (encode (.andReg d s t)) = 0x5#4 := OpcodeNibble.andReg d s t
  have hm : immediateMode (encode (.andReg d s t)) = false := by
    simp only [immediateMode, encode, BitVec.getLsbD_append]; simp
  unfold Statement
  rw [show usedBits (encode (.andReg d s t)) = _ from by simp only [usedBits, ho, hm]; rfl]
  refine BitVec.eq_of_getLsbD_eq fun i hi => ?_
  simp only [encode, BitVec.getLsbD_append, BitVec.getLsbD_and]
  interval_cases i <;> simp
theorem andImm (d : Reg) (s : Reg) (i : BitVec 5) : Statement (.andImm d s i) := by
  have ho : opcodeOf (encode (.andImm d s i)) = 0x5#4 := OpcodeNibble.andImm d s i
  have hm : immediateMode (encode (.andImm d s i)) = true := by
    simp only [immediateMode, encode, BitVec.getLsbD_append]; simp
  exact of_all (by simp [usedBits, ho, hm])
theorem not (d : Reg) (s : Reg) : Statement (.not d s) := by
  have ho : opcodeOf (encode (.not d s)) = 0x9#4 := OpcodeNibble.not d s
  unfold Statement
  rw [show usedBits (encode (.not d s)) = _ from by simp only [usedBits, ho]; rfl]
  refine BitVec.eq_of_getLsbD_eq fun i hi => ?_
  simp only [encode, BitVec.getLsbD_append, BitVec.getLsbD_and]
  interval_cases i <;> simp
theorem br (n : BitVec 3) (o : BitVec 9) : Statement (.br n o) := by
  have ho : opcodeOf (encode (.br n o)) = 0x0#4 := OpcodeNibble.br n o
  exact of_all (by simp [usedBits, ho])
theorem ld (d : Reg) (o : BitVec 9) : Statement (.ld d o) := by
  have ho : opcodeOf (encode (.ld d o)) = 0x2#4 := OpcodeNibble.ld d o
  exact of_all (by simp [usedBits, ho])
theorem st (s : Reg) (o : BitVec 9) : Statement (.st s o) := by
  have ho : opcodeOf (encode (.st s o)) = 0x3#4 := OpcodeNibble.st s o
  exact of_all (by simp [usedBits, ho])
theorem jsr (o : BitVec 11) : Statement (.jsr o) := by
  have ho : opcodeOf (encode (.jsr o)) = 0x4#4 := OpcodeNibble.jsr o
  have hm : longFlag (encode (.jsr o)) = true := by
    simp only [longFlag, encode, BitVec.getLsbD_append]; simp
  exact of_all (by simp [usedBits, ho, hm])
theorem jsrr (b : Reg) : Statement (.jsrr b) := by
  have ho : opcodeOf (encode (.jsrr b)) = 0x4#4 := OpcodeNibble.jsrr b
  have hm : longFlag (encode (.jsrr b)) = false := by
    simp only [longFlag, encode, BitVec.getLsbD_append]; simp
  unfold Statement
  rw [show usedBits (encode (.jsrr b)) = _ from by simp only [usedBits, ho, hm]; rfl]
  refine BitVec.eq_of_getLsbD_eq fun i hi => ?_
  simp only [encode, BitVec.getLsbD_append, BitVec.getLsbD_and]
  interval_cases i <;> simp
theorem ldr (d : Reg) (b : Reg) (o : BitVec 6) : Statement (.ldr d b o) := by
  have ho : opcodeOf (encode (.ldr d b o)) = 0x6#4 := OpcodeNibble.ldr d b o
  exact of_all (by simp [usedBits, ho])
theorem str (s : Reg) (b : Reg) (o : BitVec 6) : Statement (.str s b o) := by
  have ho : opcodeOf (encode (.str s b o)) = 0x7#4 := OpcodeNibble.str s b o
  exact of_all (by simp [usedBits, ho])
theorem rti : Statement .rti := rfl
theorem ldi (d : Reg) (o : BitVec 9) : Statement (.ldi d o) := by
  have ho : opcodeOf (encode (.ldi d o)) = 0xA#4 := OpcodeNibble.ldi d o
  exact of_all (by simp [usedBits, ho])
theorem sti (s : Reg) (o : BitVec 9) : Statement (.sti s o) := by
  have ho : opcodeOf (encode (.sti s o)) = 0xB#4 := OpcodeNibble.sti s o
  exact of_all (by simp [usedBits, ho])
theorem jmp (b : Reg) : Statement (.jmp b) := by
  have ho : opcodeOf (encode (.jmp b)) = 0xC#4 := OpcodeNibble.jmp b
  unfold Statement
  rw [show usedBits (encode (.jmp b)) = _ from by simp only [usedBits, ho]; rfl]
  refine BitVec.eq_of_getLsbD_eq fun i hi => ?_
  simp only [encode, BitVec.getLsbD_append, BitVec.getLsbD_and]
  interval_cases i <;> simp
theorem ret : Statement .ret := rfl
theorem res : Statement .res := rfl
theorem lea (d : Reg) (o : BitVec 9) : Statement (.lea d o) := by
  have ho : opcodeOf (encode (.lea d o)) = 0xE#4 := OpcodeNibble.lea d o
  exact of_all (by simp [usedBits, ho])
theorem trap (v : BitVec 8) : Statement (.trap v) := by
  have ho : opcodeOf (encode (.trap v)) = 0xF#4 := OpcodeNibble.trap v
  unfold Statement
  rw [show usedBits (encode (.trap v)) = _ from by simp only [usedBits, ho]; rfl]
  refine BitVec.eq_of_getLsbD_eq fun i hi => ?_
  simp only [encode, BitVec.getLsbD_append, BitVec.getLsbD_and]
  interval_cases i <;> simp
theorem getc : Statement .getc := rfl
theorem out : Statement .out := rfl
theorem puts : Statement .puts := rfl
theorem inp : Statement .inp := rfl
theorem putsp : Statement .putsp := rfl
theorem halt : Statement .halt := rfl

end Sys2Proof.Laws.EncodeUsed
end

