-- ==== Sys2Proof/Laws/Step.lean ====
section
/-! SUPPORT. What a step can do (rules R80, R202). -/

namespace Sys2Proof.Machine

/-- A completed step ran the fetched word's instruction, or its fetch stopped for want of input. -/
theorem step_eq_next {s t : State} (h : step s = .next t) :
    s.run = .running ∧ ((∃ w u, fetch s = .ok w u ∧ exec (decodeWord w) u = .next t) ∨ fetch s = .stop t) := by
  unfold step at h
  cases hr : s.run with
  | stopped c n => simp [hr] at h
  | running =>
    refine ⟨rfl, ?_⟩
    simp only [hr] at h
    cases hf : fetch s with
    | ok w u => rw [hf] at h; exact .inl ⟨w, u, rfl, h⟩
    | stop u => rw [hf] at h; exact .inr (by simpa using h)
    | stuck f => rw [hf] at h; simp at h

/-- What a completed fetch did: the word read, and the state that read left with pc incremented. -/
theorem fetch_eq_ok {s u : State} {w : Word} (h : fetch s = .ok w u) :
    ∃ s', memRead s.pc s = .ok w s' ∧ u = s'.setPc (addWrap s'.pc 0x0001#16) := by
  unfold fetch at h
  cases hm : memRead s.pc s with
  | ok w' s' => rw [hm, Flow.andThen_ok] at h; injection h with h1 h2; exact ⟨s', by rw [h1], h2.symm⟩
  | stop s' => rw [hm] at h; simp at h
  | stuck f => rw [hm] at h; simp at h

/-- A fetch that stops does so in its read of KBSR_ADDR, before pc moves (decision D28). -/
theorem fetch_eq_stop {s t : State} (h : fetch s = .stop t) : memRead s.pc s = .stop t := by
  unfold fetch at h
  cases hm : memRead s.pc s with
  | ok w' s' => rw [hm] at h; simp at h
  | stop s' => rw [hm, Flow.andThen_stop] at h; injection h with h1; rw [h1]
  | stuck f => rw [hm] at h; simp at h

end Sys2Proof.Machine
end

