-- ==== Sys2Proof/Laws/Trap.lean ====
section
/-! SUPPORT. What the routines' shared operations can do: the output of one word, and the walk of PUTS and PUTSP (rules R172,
R175, R176, R179). -/

namespace Sys2Proof.Machine

theorem putsWord_framed (w : Word) (s : State) : (putsWord w s).Framed s := emit_framed _ s

theorem putspWord_framed (w : Word) (s : State) : (putspWord w s).Framed s := by
  refine (emit_framed _ s).andThen fun t => ?_
  split
  · exact ⟨.refl t, rfl⟩
  · exact emit_framed _ t

/-- The addresses left before the walk at `a` reads KBSR_ADDR. -/
def toKbsr (a : Word) : Nat := (kbsrAddr - a).toNat

theorem toKbsr_lt (a : Word) : toKbsr a < 65536 := (kbsrAddr - a).isLt

theorem toKbsr_eq (a : Word) : toKbsr a = (65024 + 65536 - a.toNat) % 65536 := by
  have := a.isLt
  simp only [toKbsr, kbsrAddr, BitVec.toNat_sub]
  simp; omega

theorem ne_kbsr_toNat {a : Word} (h : a ≠ kbsrAddr) : a.toNat ≠ 65024 := fun hn => h (BitVec.eq_of_toNat_eq hn)

theorem toKbsr_next {a : Word} (h : a ≠ kbsrAddr) : toKbsr (addWrap a 0x0001#16) + 1 = toKbsr a := by
  have h1 := ne_kbsr_toNat h
  have h2 := a.isLt
  rw [toKbsr_eq, toKbsr_eq]
  simp only [addWrap, BitVec.toNat_add]
  simp; omega

theorem toKbsr_after_kbsr : toKbsr (addWrap kbsrAddr 0x0001#16) = 65535 := by decide

/-- One iteration of the walk. -/
theorem walk_succ (put : Word → State → Written) (fuel : Nat) (a : Word) (s : State) :
    walk put (fuel + 1) a s =
      (memRead a s).andThen fun w s' =>
        if w = 0x0000#16 then .ok () s'
        else (put w s').flow.andThen fun _ s'' => walk put fuel (addWrap a 0x0001#16) s'' := rfl

/-- With one unit of fuel for every address before KBSR_ADDR and 65536 for every answer of the host, a walk that does not
complete holds on input: each lap takes an answer (rule R176). -/
theorem walk_stuck {put : Word → State → Written} (hput : ∀ w s, (put w s).Framed s) {fuel : Nat} {a : Word} {s : State}
    {f : Fault} (hfuel : toKbsr a + 65536 * s.input.length < fuel) (h : walk put fuel a s = .stuck f) :
    f = .awaitingInput := by
  induction fuel generalizing a s with
  | zero => omega
  | succ fuel ih =>
    rw [walk_succ] at h
    cases hm : memRead a s with
    | stop s' => rw [hm] at h; simp at h
    | stuck f' =>
      rw [hm, Flow.andThen_stuck] at h
      injection h with h
      rw [← h]; exact (memRead_eq_stuck hm).2.2
    | ok w s' =>
      rw [hm, Flow.andThen_ok] at h
      by_cases hw : w = 0x0000#16
      · simp [hw] at h
      · rw [if_neg hw] at h
        have hf := hput w s'
        cases hp : put w s' with
        | failed u => rw [hp] at h; simp at h
        | done u =>
          rw [hp] at h hf
          simp only [Written.flow_done, Flow.andThen_ok] at h
          refine ih ?_ h
          rw [hf.1.input]
          rcases memRead_eq_ok hm with ⟨hne, -, rfl⟩ | ⟨rfl, b, rest, hi, rfl, -⟩
          · have := toKbsr_next hne; omega
          · simp only [State.pollByte_input, hi, List.length_cons] at hfuel ⊢
            rw [toKbsr_after_kbsr]
            have h0 : toKbsr kbsrAddr = 0 := by decide
            omega

/-- More fuel changes nothing in a walk that has not run out of it. -/
theorem walk_more_fuel {put : Word → State → Written} {n m : Nat} {a : Word} {s : State} (hnm : n ≤ m)
    (h : walk put n a s ≠ .stuck .outOfFuel) : walk put m a s = walk put n a s := by
  induction n generalizing m a s with
  | zero => exact absurd rfl h
  | succ n ih =>
    obtain ⟨m, rfl⟩ : ∃ k, m = k + 1 := ⟨m - 1, by omega⟩
    rw [walk_succ] at h
    rw [walk_succ, walk_succ]
    cases hm : memRead a s with
    | stop t => rfl
    | stuck f => rfl
    | ok w t =>
      rw [hm] at h
      simp only [Flow.andThen_ok] at h ⊢
      by_cases hw : w = 0x0000#16
      · simp [hw]
      · simp only [hw, if_false] at h ⊢
        cases hp : put w t with
        | failed u => rfl
        | done u => rw [hp] at h; exact ih (by omega) h

/-- The fuel of `putString` is enough. -/
theorem walkFuel_enough (a : Word) (s : State) : toKbsr a + 65536 * s.input.length < walkFuel s := by
  have := toKbsr_lt a
  simp only [walkFuel, memWords_eq]; omega

theorem byteCount_append (x y : List ConsoleAnswer) : byteCount (x ++ y) = byteCount x + byteCount y := by
  induction x with
  | nil => simp [byteCount]
  | cons c x ih => cases c <;> simp [byteCount, ih]; omega

/-- What a walk that ends has done: it has polled and output, and changed nothing else; where a poll ended the input or an
output failed, it has stopped the block. -/
structure WalkFrame (s t : State) : Prop where
  regs : t.regs = s.regs
  pc : t.pc = s.pc
  cond : t.cond = s.cond
  params : t.params = s.params
  mem_wf : s.mem.wf = true → t.mem.wf = true
  mem : ∀ a, a ≠ kbsrAddr → a ≠ kbdrAddr → t.mem.read a = s.mem.read a
  input : ∃ taken, s.input = taken ++ t.input ∧ t.consumed = s.consumed + byteCount taken ∧ (taken = [] → t.mem = s.mem)
  output : ∃ es, t.output = s.output ++ es

theorem WalkFrame.refl (s : State) : WalkFrame s s :=
  ⟨rfl, rfl, rfl, rfl, id, fun _ _ _ => rfl, ⟨[], rfl, rfl, fun _ => rfl⟩, ⟨[], by simp⟩⟩

theorem WalkFrame.trans {s t u : State} (h : WalkFrame s t) (h' : WalkFrame t u) : WalkFrame s u := by
  obtain ⟨x, hx, hxc, hxm⟩ := h.input
  obtain ⟨y, hy, hyc, hym⟩ := h'.input
  obtain ⟨es, he⟩ := h.output
  obtain ⟨es', he'⟩ := h'.output
  refine ⟨h'.regs.trans h.regs, h'.pc.trans h.pc, h'.cond.trans h.cond, h'.params.trans h.params,
    fun hw => h'.mem_wf (h.mem_wf hw), fun a hs hd => (h'.mem a hs hd).trans (h.mem a hs hd), ⟨x ++ y, ?_, ?_, ?_⟩,
    ⟨es ++ es', by rw [he', he, List.append_assoc]⟩⟩
  · rw [hx, hy, List.append_assoc]
  · rw [hyc, hxc, byteCount_append, Nat.add_assoc]
  · intro hxy
    obtain ⟨h1, h2⟩ := List.append_eq_nil_iff.mp hxy
    rw [hym h2, hxm h1]

theorem Written.Frame.walkFrame {s t : State} (h : Written.Frame s t) : WalkFrame s t :=
  ⟨h.regs, h.pc, h.cond, h.params, fun hw => h.mem ▸ hw, fun _ _ _ => by rw [h.mem],
    ⟨[], by rw [h.input]; rfl, h.consumed, fun _ => h.mem⟩, h.output⟩

theorem memRead_walkFrame {a : Word} {s t : State} {w : Word} (h : memRead a s = .ok w t) :
    WalkFrame s t ∧ t.run = s.run := by
  obtain ⟨h1, h2, h3, h4, h5, -, h7, h8, h9⟩ := memRead_ok_frame h
  refine ⟨⟨h1, h2, h3, h7, h8, h9, ?_, ⟨[], by simp [h5]⟩⟩, h4⟩
  rcases memRead_eq_ok h with ⟨-, -, rfl⟩ | ⟨-, b, rest, hi, rfl, -⟩
  · exact ⟨[], rfl, rfl, fun _ => rfl⟩
  · exact ⟨[.byte b], by simp [hi], by simp [byteCount], by simp⟩

theorem memRead_stop_walkFrame {a : Word} {s t : State} (h : memRead a s = .stop t) :
    WalkFrame s t ∧ t.run = .stopped (.ioFailure .inputEnd) s.params.ioFailStatus := by
  obtain ⟨-, rest, hi, rfl⟩ := memRead_eq_stop h
  refine ⟨⟨rfl, rfl, rfl, rfl, id, fun _ _ _ => rfl, ⟨[.eof], by simp [hi], rfl, by simp⟩, ⟨[], by simp⟩⟩, rfl⟩

/-- A walk that ends has its frame, with `run` as it was. -/
theorem walk_ok {put : Word → State → Written} (hput : ∀ w s, (put w s).Framed s) {fuel : Nat} {a : Word} {s t : State}
    (h : walk put fuel a s = .ok () t) : WalkFrame s t ∧ t.run = s.run := by
  induction fuel generalizing a s with
  | zero => simp [walk] at h
  | succ fuel ih =>
    rw [walk_succ] at h
    cases hm : memRead a s with
    | stop s' => rw [hm] at h; simp at h
    | stuck f => rw [hm] at h; simp at h
    | ok w s' =>
      rw [hm, Flow.andThen_ok] at h
      obtain ⟨hf, hr⟩ := memRead_walkFrame hm
      by_cases hw : w = 0x0000#16
      · rw [if_pos hw] at h
        injection h with _ h
        exact h ▸ ⟨hf, hr⟩
      · rw [if_neg hw] at h
        have hp := hput w s'
        cases hpw : put w s' with
        | failed u => rw [hpw] at h; simp at h
        | done u =>
          rw [hpw] at h hp
          simp only [Written.flow_done, Flow.andThen_ok] at h
          obtain ⟨hf', hr'⟩ := ih h
          exact ⟨(hf.trans hp.1.walkFrame).trans hf', hr'.trans (hp.2.trans hr)⟩

/-- A walk that stops has its frame, and the cause is an I/O failure. -/
theorem walk_stop {put : Word → State → Written} (hput : ∀ w s, (put w s).Framed s) {fuel : Nat} {a : Word} {s t : State}
    (h : walk put fuel a s = .stop t) :
    WalkFrame s t ∧ ∃ kind, t.run = .stopped (.ioFailure kind) s.params.ioFailStatus := by
  induction fuel generalizing a s with
  | zero => simp [walk] at h
  | succ fuel ih =>
    rw [walk_succ] at h
    cases hm : memRead a s with
    | stuck f => rw [hm] at h; simp at h
    | stop s' =>
      rw [hm, Flow.andThen_stop] at h
      injection h with h
      obtain ⟨hf, hr⟩ := memRead_stop_walkFrame hm
      exact h ▸ ⟨hf, _, hr⟩
    | ok w s' =>
      rw [hm, Flow.andThen_ok] at h
      obtain ⟨hf, -⟩ := memRead_walkFrame hm
      by_cases hw : w = 0x0000#16
      · simp [hw] at h
      · rw [if_neg hw] at h
        have hp := hput w s'
        cases hpw : put w s' with
        | failed u =>
          rw [hpw] at h hp
          simp only [Written.flow_failed, Flow.andThen_stop] at h
          injection h with h
          exact h ▸ ⟨hf.trans hp.1.walkFrame, _, by rw [hp.2, hf.params]⟩
        | done u =>
          rw [hpw] at h hp
          simp only [Written.flow_done, Flow.andThen_ok] at h
          obtain ⟨hf', kind, hr'⟩ := ih h
          have hsu := hf.trans hp.1.walkFrame
          exact ⟨hsu.trans hf', kind, by rw [hr', hsu.params]⟩

end Sys2Proof.Machine
end

