-- ==== Sys2Proof/Tests/Slice0.lean ====
section
/-! SUPPORT. The model's own tests: every constructor's word decoded, the well-formedness checks, single steps with the
results of 95_test_vectors.md (the vector's id is in the theorem's docstring), and for every statement with hypotheses a
state or word that meets them. -/

namespace Sys2Proof.Tests

open Sys2Proof Sys2Proof.Machine

/-! ### Well-formedness: an ill-formed term for each check -/

theorem test_jmp_r7_is_not_well_formed : Instr.wellFormed (.jmp .r7) = false := by decide
theorem test_trap_getc_is_not_well_formed : Instr.wellFormed (.trap 0x20) = false := by decide
theorem test_trap_out_is_not_well_formed : Instr.wellFormed (.trap 0x21) = false := by decide
theorem test_trap_puts_is_not_well_formed : Instr.wellFormed (.trap 0x22) = false := by decide
theorem test_trap_in_is_not_well_formed : Instr.wellFormed (.trap 0x23) = false := by decide
theorem test_trap_putsp_is_not_well_formed : Instr.wellFormed (.trap 0x24) = false := by decide
theorem test_trap_halt_is_not_well_formed : Instr.wellFormed (.trap 0x25) = false := by decide
theorem test_unknown_traps_are_well_formed :
    Instr.wellFormed (.trap 0x1F) = true ∧ Instr.wellFormed (.trap 0x26) = true := by decide

/-! ### Decoding: a word of every row, its bits written out from rule R71 -/

theorem test_decode_addReg : decodeWord 0b0001000001000010#16 = .addReg .r0 .r1 .r2 := by decide
theorem test_decode_addReg_unused : decodeWord 0b0001000001011000#16 = .addReg .r0 .r1 .r0 := by decide
theorem test_decode_addImm : decodeWord 0b0001110110111101#16 = .addImm .r6 .r6 0b11101 := by decide
theorem test_decode_andReg : decodeWord 0b0101011001000010#16 = .andReg .r3 .r1 .r2 := by decide
theorem test_decode_andImm : decodeWord 0b0101000001110000#16 = .andImm .r0 .r1 0b10000 := by decide
theorem test_decode_not : decodeWord 0b1001100101111111#16 = .not .r4 .r5 := by decide
theorem test_decode_br : decodeWord 0b0000011111111110#16 = .br 0b011 0b111111110 := by decide
theorem test_decode_ld : decodeWord 0b0010010000000010#16 = .ld .r2 2 := by decide
theorem test_decode_st : decodeWord 0b0011011111111110#16 = .st .r3 0b111111110 := by decide
theorem test_decode_jsr : decodeWord 0b0100110000000000#16 = .jsr 0b10000000000 := by decide
theorem test_decode_jsrr : decodeWord 0b0100011011111111#16 = .jsrr .r3 := by decide
theorem test_decode_ldr : decodeWord 0b0110010001111111#16 = .ldr .r2 .r1 0b111111 := by decide
theorem test_decode_str : decodeWord 0b0111000110000101#16 = .str .r0 .r6 5 := by decide
theorem test_decode_rti : decodeWord 0b1000111111111111#16 = .rti := by decide
theorem test_decode_ldi : decodeWord 0b1010000000100001#16 = .ldi .r0 33 := by decide
theorem test_decode_sti : decodeWord 0b1011001000000111#16 = .sti .r1 7 := by decide
theorem test_decode_jmp : decodeWord 0b1100000010000000#16 = .jmp .r2 := by decide
theorem test_decode_ret : decodeWord 0b1100111111111111#16 = .ret := by decide
theorem test_decode_res : decodeWord 0b1101000100100011#16 = .res := by decide
theorem test_decode_lea : decodeWord 0b1110000111111111#16 = .lea .r0 0b111111111 := by decide
theorem test_decode_trap : decodeWord 0b1111000011111111#16 = .trap 0xFF := by decide
theorem test_decode_getc : decodeWord 0b1111000100100000#16 = .getc := by decide
theorem test_decode_out : decodeWord 0b1111000000100001#16 = .out := by decide
theorem test_decode_puts : decodeWord 0b1111000000100010#16 = .puts := by decide
theorem test_decode_in : decodeWord 0b1111000000100011#16 = .inp := by decide
theorem test_decode_putsp : decodeWord 0b1111000000100100#16 = .putsp := by decide
theorem test_decode_halt : decodeWord 0b1111111100100101#16 = .halt := by decide

/-- No whole word, and a table word wider than one word, are refused; bytes are taken high byte first. -/
theorem test_decode_refusals :
    (match decodeBytes [0x10] with | .error e => e == .truncated | .ok _ => false) = true ∧
    (match decodeBytes [0xF0, 0x25, 0x07] with | .error _ => false | .ok x => x == (.halt, [0x07])) = true ∧
    decodeTableWord 16 0x10000 = none ∧ decodeTableWord 16 0xC1C0 = some .ret := by decide

/-! ### Single steps -/

/-- The state the tests start from: reset, with some values for the open parameters. -/
def st : State :=
  { State.reset with
    params :=
      { kbsrReadyMode := .assign, jsrrOrder := .writeR7First, inPrompt := [0x3F#8], haltNotice := [0x21#8], ioFailStatus := 2 } }

/-- `st` with these memory words, at this pc. -/
def at' (pc : Word) (words : List (Word × Word)) : State :=
  { st with pc := pc, mem := words.foldl (fun m x => m.write x.1 x.2) [] }

/-- A component of the state after one step, where there is one. -/
def after {α : Type} (s : State) (f : State → α) : Option α :=
  match step s with
  | .next t => some (f t)
  | .fault _ => none
  | .refused _ => none

/-- Vector AD1: signed overflow is not flagged. -/
theorem test_add_overflow :
    after (((at' 0x3000 [(0x3000, 0x1042)]).setReg .r1 0x7FFF).setReg .r2 0x0001) (fun t => (t.reg .r0, t.cond, t.pc))
      = some (0x8000#16, .n, 0x3001#16) := by decide
/-- Vector AD5: both sources are read before the write. -/
theorem test_add_doubles :
    after ((at' 0x3000 [(0x3000, 0x1241)]).setReg .r1 0x0003) (fun t => (t.reg .r1, t.cond)) = some (0x0006#16, .p) := by
  decide
/-- Vector S3, the source's own example. -/
theorem test_add_imm_negative :
    after ((at' 0x3000 [(0x3000, 0x1DBD)]).setReg .r6 0x4000) (fun t => (t.reg .r6, t.cond)) = some (0x3FFD#16, .p) := by
  decide
/-- Vector AD3. -/
theorem test_add_imm_lowest :
    after ((at' 0x3000 [(0x3000, 0x1070)]).setReg .r1 0x0005) (fun t => (t.reg .r0, t.cond)) = some (0xFFF5#16, .n) := by
  decide
/-- Vector AN1. -/
theorem test_and :
    after (((at' 0x3000 [(0x3000, 0x5642)]).setReg .r1 0x00FF).setReg .r2 0x0F0F) (fun t => (t.reg .r3, t.cond))
      = some (0x000F#16, .p) := by decide
/-- Vector AN4: imm5 is sign-extended. -/
theorem test_and_imm_extends :
    after ((at' 0x3000 [(0x3000, 0x5070)]).setReg .r1 0xABCD) (fun t => (t.reg .r0, t.cond)) = some (0xABC0#16, .n) := by
  decide
/-- Vector AN2. -/
theorem test_and_imm_clears :
    after ((at' 0x3000 [(0x3000, 0x5020)]).setReg .r0 0x1234) (fun t => (t.reg .r0, t.cond)) = some (0x0000#16, .z) := by
  decide
/-- Vector NT4. -/
theorem test_not :
    after ((at' 0x3000 [(0x3000, 0x96BF)]).setReg .r2 0x8000) (fun t => (t.reg .r3, t.cond)) = some (0x7FFF#16, .p) := by
  decide
/-- Vectors S4 and S5, the source's own example. -/
theorem test_br :
    after { at' 0x0060 [(0x0060, 0x086B)] with cond := .n } State.pc = some 204#16 ∧
    after { at' 0x0060 [(0x0060, 0x086B)] with cond := .z } State.pc = some 97#16 := by decide
/-- Vectors B3 and B1: BRnzp is not taken at reset; the target wraps. -/
theorem test_br_none_and_wrap :
    after (at' 0x0000 [(0x0000, 0x0E05)]) State.pc = some 0x0001#16 ∧
    after { at' 0x0000 [(0x0000, 0x03FE)] with cond := .p } State.pc = some 0xFFFF#16 := by decide
/-- Vector L3: pc and the address wrap. -/
theorem test_ld_wraps :
    after (at' 0xFFFF [(0xFFFF, 0x2000), (0x0000, 0x0042)]) (fun t => (t.reg .r0, t.cond, t.pc))
      = some (0x0042#16, .p, 0x0000#16) := by decide
/-- Vector L4: the instruction's own word. -/
theorem test_ld_itself :
    after (at' 0x3000 [(0x3000, 0x21FF)]) (fun t => (t.reg .r0, t.cond)) = some (0x21FF#16, .p) := by decide
/-- Vector L7. -/
theorem test_ldi :
    after (at' 0x3000 [(0x3000, 0xA020), (0x3021, 0x01CA), (0x01CA, 0x8001)]) (fun t => (t.reg .r0, t.cond))
      = some (0x8001#16, .n) := by decide
/-- Vector K11: the data read polls. -/
theorem test_ldi_polls :
    after { at' 0x3000 [(0x3000, 0xA204), (0x3005, 0xFE00)] with input := [.byte 0x41, .byte 0x42] }
      (fun t => (t.reg .r1, t.cond, t.input, t.mem.read 0xFE02)) = some (0x8000#16, .n, [.byte 0x42#8], 0x0041#16) := by
  decide
/-- Vector L6: base equals destination. -/
theorem test_ldr_same_register :
    after ((at' 0x3000 [(0x3000, 0x6241), (0x0000, 0x7000)]).setReg .r1 0xFFFF) (fun t => (t.reg .r1, t.cond))
      = some (0x7000#16, .p) := by decide
/-- Vector K14. -/
theorem test_ldr_polls :
    after { (at' 0x3000 [(0x3000, 0x6040)]).setReg .r1 0xFE00 with input := [.byte 0x07] }
      (fun t => (t.reg .r0, t.cond, t.mem.read 0xFE02, t.consumed)) = some (0x8000#16, .n, 0x0007#16, 1) := by decide
/-- Vectors L9 and L10. -/
theorem test_lea_sets_cond :
    after (at' 0x7F00 [(0x7F00, 0xE0FF)]) (fun t => (t.reg .r0, t.cond)) = some (0x8000#16, .n) ∧
    after (at' 0x0000 [(0x0000, 0xE1FF)]) (fun t => (t.reg .r0, t.cond)) = some (0x0000#16, .z) := by decide
/-- Vector ST1. -/
theorem test_st :
    after { (at' 0x3000 [(0x3000, 0x37FE)]).setReg .r3 0xBEEF with cond := .z } (fun t => (t.mem.read 0x2FFF, t.cond))
      = some (0xBEEF#16, .z) := by decide
/-- Vector K9: a store into KBSR is plain. -/
theorem test_st_kbsr :
    after { (at' 0xFDFF [(0xFDFF, 0x3000)]).setReg .r0 0x1234 with input := [.byte 0x41] }
      (fun t => (t.mem.read 0xFE00, t.input)) = some (0x1234#16, [.byte 0x41#8]) := by decide
/-- Vector ST2. -/
theorem test_sti :
    after ((at' 0x3003 [(0x3003, 0xB207), (0x300B, 0x4000)]).setReg .r1 0x00D2) (fun t => t.mem.read 0x4000)
      = some 0x00D2#16 := by decide
/-- Vector K12: the pointer read polls. -/
theorem test_sti_polls :
    after { (at' 0xFD80 [(0xFD80, 0xB07F)]).setReg .r0 0x0055 with input := [.byte 0x41] }
      (fun t => (t.mem.read 0x8000, t.mem.read 0xFE00)) = some (0x0055#16, 0x8000#16) := by decide
/-- Vectors ST3 and ST4. -/
theorem test_str :
    after (((at' 0x3000 [(0x3000, 0x7185)]).setReg .r6 0x5000).setReg .r0 0x0007) (fun t => t.mem.read 0x5005)
      = some 0x0007#16 ∧
    after ((at' 0x3000 [(0x3000, 0x7240)]).setReg .r1 0x6000) (fun t => t.mem.read 0x6000) = some 0x6000#16 := by decide
/-- Vector J1. -/
theorem test_jmp :
    after ((at' 0x3000 [(0x3000, 0xC080)]).setReg .r2 0x4000) State.pc = some 0x4000#16 := by decide
/-- Vector J3: unused bits all ones. -/
theorem test_ret :
    after ((at' 0x3000 [(0x3000, 0xCFFF)]).setReg .r7 0x1111) State.pc = some 0x1111#16 := by decide
/-- Vectors J6 and J7. -/
theorem test_jsr :
    after (at' 0x3000 [(0x3000, 0x4C00)]) (fun t => (t.reg .r7, t.pc)) = some (0x3001#16, 0x2C01#16) ∧
    after (at' 0x3000 [(0x3000, 0x4BFF)]) (fun t => (t.reg .r7, t.pc)) = some (0x3001#16, 0x3400#16) := by decide
/-- Vector J8. -/
theorem test_jsrr :
    after ((at' 0x3000 [(0x3000, 0x40C0)]).setReg .r3 0x5000) (fun t => (t.reg .r7, t.pc))
      = some (0x3001#16, 0x5000#16) := by decide
/-- Vectors J9 and J10: both orders. -/
theorem test_jsrr_r7 :
    after ((at' 0x3000 [(0x3000, 0x41C0)]).setReg .r7 0x9999) (fun t => (t.reg .r7, t.pc))
      = some (0x3001#16, 0x3001#16) ∧
    after { (at' 0x3000 [(0x3000, 0x41C0)]).setReg .r7 0x9999 with
        params := { st.params with jsrrOrder := .readBaseFirst } } (fun t => (t.reg .r7, t.pc))
      = some (0x3001#16, 0x9999#16) := by decide
/-- Vectors TR2 and TR3. -/
theorem test_getc :
    after { at' 0x3000 [(0x3000, 0xF020)] with cond := .p, input := [.byte 0x80] } (fun t => (t.reg .r0, t.cond))
      = some (0x0080#16, .p) ∧
    after { (at' 0x3000 [(0x3000, 0xF020)]).setReg .r0 0x1234 with input := [.eof] } (fun t => (t.reg .r0, t.run))
      = some (0x1234#16, .stopped (.ioFailure .inputEnd) 2) := by decide
/-- Rows 14 of 93_implementation_defined.md: with no answer the step holds. -/
theorem test_getc_holds : after (at' 0x3000 [(0x3000, 0xF020)]) State.pc = none := by decide
/-- Vectors TR4 and TR20. -/
theorem test_out :
    after ((at' 0x3000 [(0x3000, 0xF021)]).setReg .r0 0x1234) State.output = some [.byte 0x34#8, .flush] ∧
    after { (at' 0x3000 [(0x3000, 0xF021)]).setReg .r0 0x0041 with outputBudget := some 0 } (fun t => (t.output, t.run))
      = some ([], .stopped (.ioFailure .outputFail) 2) := by decide
/-- Vector TR8: the walk wraps. -/
theorem test_puts_wraps :
    after ((at' 0x3000 [(0x3000, 0xF022), (0xFFFF, 0x0041), (0x0000, 0x0042)]).setReg .r0 0xFFFF) State.output
      = some [.byte 0x41#8, .byte 0x42#8, .flush] := by decide
/-- Vector TR21: the walk polls. -/
theorem test_puts_polls :
    after { (at' 0x3000 [(0x3000, 0xF022)]).setReg .r0 0xFE00 with input := [.byte 0x41] }
      (fun t => (t.output, t.mem.read 0xFE02, t.input)) = some ([.byte 0x00#8, .flush], 0x0041#16, []) := by decide
/-- Vector TR12: prompt, echo, flush; cond = Z. -/
theorem test_in :
    after { at' 0x3000 [(0x3000, 0xF023)] with cond := .n, input := [.byte 0x00] }
      (fun t => (t.output, t.reg .r0, t.cond)) = some ([.byte 0x3F#8, .byte 0x00#8, .flush], 0x0000#16, .z) := by decide
/-- Rule R178: if the echo fails, R0 and cond are unchanged. -/
theorem test_in_echo_fails :
    after { (at' 0x3000 [(0x3000, 0xF023)]).setReg .r0 0x1234 with cond := .n, input := [.byte 0x07], outputBudget := some 1 }
      (fun t => (t.output, t.reg .r0, t.cond)) = some ([.byte 0x3F#8], 0x1234#16, .n) := by decide
/-- Vector TR9. -/
theorem test_putsp :
    after ((at' 0x3000 [(0x3000, 0xF024), (0x4000, 0x6548), (0x4001, 0x0021)]).setReg .r0 0x4000) State.output
      = some [.byte 0x48#8, .byte 0x65#8, .byte 0x21#8, .flush] := by decide
/-- Vector TR10: a zero low byte is output. -/
theorem test_putsp_zero_low_byte :
    after ((at' 0x3000 [(0x3000, 0xF024), (0x4000, 0x4100)]).setReg .r0 0x4000) State.output
      = some [.byte 0x00#8, .byte 0x41#8, .flush] := by decide
/-- Vector TR14. -/
theorem test_halt :
    after (at' 0x0007 [(0x0007, 0xF025)]) (fun t => (t.output, t.run, t.pc))
      = some ([.byte 0x21#8, .flush], .stopped .halt 1, 0x0008#16) := by decide
/-- Vector TR17. -/
theorem test_unknown_trap :
    after ((at' 0x3000 [(0x3000, 0xF026)]).setReg .r0 0x1234) (fun t => (t.run, t.pc, t.output, t.reg .r0))
      = some (.stopped (.unknownTrap 0x26#8) 1, 0x3001#16, [], 0x1234#16) := by decide
/-- Vector RV2. -/
theorem test_rti :
    after (at' 0x0003 [(0x0003, 0x8FFF)]) (fun t => (t.run, t.pc)) = some (.stopped (.reservedOpcode 0x8#4) 1, 0x0004#16) := by
  decide
/-- Vector RV3. -/
theorem test_res :
    after (at' 0x1000 [(0x1000, 0xD000)]) (fun t => (t.run, t.pc)) = some (.stopped (.reservedOpcode 0xD#4) 1, 0x1001#16) := by
  decide
/-- Vectors P2 and P4: a fetch from KBSR_ADDR. -/
theorem test_fetch_polls :
    after { at' 0xFE00 [] with input := [.byte 0x41] } (fun t => (t.run, t.pc, t.mem.read 0xFE02))
      = some (.stopped (.reservedOpcode 0x8#4) 1, 0xFE01#16, 0x0041#16) ∧
    after { at' 0xFE00 [] with input := [.eof] } (fun t => (t.run, t.pc))
      = some (.stopped (.ioFailure .inputEnd) 2, 0xFE00#16) := by decide
/-- Vector K7: KBSR_READY_MODE = OR. -/
theorem test_poll_or_mode :
    after { at' 0xFDFF [(0xFDFF, 0x2000), (0xFE00, 0x1234)] with
        input := [.byte 0x41], params := { st.params with kbsrReadyMode := .or } } (fun t => t.reg .r0)
      = some 0x9234#16 := by decide
/-- Vectors IM1 and IM2. -/
theorem test_image_load :
    (match loadImage [0x30, 0x00, 0x12, 0x34, 0xAB] st with
      | .ok t => t.mem.read 0x3000 | .error _ => 0) = 0x1234#16 ∧
    (match loadImage [0xFF, 0xFF, 0x11, 0x11, 0x22, 0x22] st with
      | .ok t => (t.mem.read 0xFFFF, t.mem.read 0x0000) | .error _ => (0, 0)) = (0x1111#16, 0x2222#16) := by decide
/-- The word of `withFetchWord` is what the next step runs. -/
theorem test_with_fetch_word :
    after (State.reset.withFetchWord 16 0x1DBD) (fun t => (t.reg .r6, t.cond, t.pc)) = some (0xFFFD#16, .n, 0x0001#16) := by
  decide

/-! ### Witnesses: states and words that meet the hypotheses of the statements

`witness_<name>` goes with `Obligations.<Name>`; where a statement has several clauses, each has its own, at the ends of
the clause's range. -/

/-- `st` with this pc, these host answers and R0-R6 as they are. -/
def waiting (pc : Word) (input : List ConsoleAnswer) : State := { st with pc := pc, input := input }

theorem inv_waiting (pc : Word) (input : List ConsoleAnswer) : (waiting pc input).Inv :=
  ⟨rfl, by show (2 : Nat) ≠ 0; decide, rfl⟩

theorem inv_st : st.Inv := ⟨by decide, by decide, by decide⟩

/-! Encoding. -/

theorem witness_DecodeOfEncodeIsIdentity :
    (Instr.wellFormed (.jmp .r6) && Instr.wellFormed (.trap 0x1F) && Instr.wellFormed (.trap 0x26)
      && Instr.wellFormed (.addImm .r7 .r0 0b10000) && Instr.wellFormed (.jsr 0b10000000000) && Instr.wellFormed .ret) = true := by
  decide

theorem witness_UnusedBits_register :
    (field 0x1040#16 15 12 = field 0x1058#16 15 12 ∧ field 0x1040#16 15 12 = 1 ∧ field 0x1040#16 5 5 = 0 ∧
      field 0x1058#16 5 5 = 0 ∧ field 0x1040#16 11 6 = field 0x1058#16 11 6 ∧ field 0x1040#16 2 0 = field 0x1058#16 2 0) ∧
    (field 0x5FC7#16 15 12 = field 0x5FDF#16 15 12 ∧ field 0x5FC7#16 15 12 = 5 ∧ field 0x5FC7#16 5 5 = 0 ∧
      field 0x5FDF#16 5 5 = 0 ∧ field 0x5FC7#16 11 6 = field 0x5FDF#16 11 6 ∧
      field 0x5FC7#16 2 0 = field 0x5FDF#16 2 0) := by decide

theorem witness_UnusedBits_others :
    (field 0x9000#16 15 12 = 9 ∧ field 0x903F#16 15 12 = 9 ∧ field 0x9000#16 11 6 = field 0x903F#16 11 6) ∧
    (field 0xC1C0#16 15 12 = 12 ∧ field 0xCFFF#16 15 12 = 12 ∧ field 0xC1C0#16 8 6 = field 0xCFFF#16 8 6) ∧
    (field 0x4000#16 15 11 = 8 ∧ field 0x463F#16 15 11 = 8 ∧ field 0x4000#16 8 6 = field 0x463F#16 8 6) ∧
    (field 0xF025#16 15 12 = 15 ∧ field 0xFF25#16 15 12 = 15 ∧ field 0xF025#16 7 0 = field 0xFF25#16 7 0) ∧
    (field 0x8000#16 15 12 = 8 ∧ field 0x8FFF#16 15 12 = 8) ∧
    (field 0xD000#16 15 12 = 13 ∧ field 0xDFFF#16 15 12 = 13) := by decide

theorem witness_OperandFieldsStandAtTheirBits_low :
    field 0x2000#16 15 12 = 2 ∧ (field 0x4000#16 15 12 = 4 ∧ field 0x4000#16 11 11 = 0) ∧ field 0x6000#16 15 12 = 6 ∧
    field 0xA000#16 15 12 = 10 ∧ field 0xB000#16 15 12 = 11 ∧
    (field 0xF01F#16 15 12 = 15 ∧ field 0xF01F#16 7 0 < 0x20) := by decide

theorem witness_OperandFieldsStandAtTheirBits_high :
    field 0x2FFF#16 15 12 = 2 ∧ (field 0x47FF#16 15 12 = 4 ∧ field 0x47FF#16 11 11 = 0) ∧ field 0x6FFF#16 15 12 = 6 ∧
    field 0xAFFF#16 15 12 = 10 ∧ field 0xBFFF#16 15 12 = 11 ∧
    (field 0xF026#16 15 12 = 15 ∧ 0x25 < field 0xF026#16 7 0) := by decide

/-- The words of BR, ST, STR, LEA, JMP, RET and JSR: the lowest and the highest. -/
theorem witness_words_of_the_own_statements :
    (field 0x0000#16 15 12 = 0 ∧ field 0x0FFF#16 15 12 = 0) ∧ (field 0x3000#16 15 12 = 3 ∧ field 0x3FFF#16 15 12 = 3) ∧
    (field 0x7000#16 15 12 = 7 ∧ field 0x7FFF#16 15 12 = 7) ∧ (field 0xE000#16 15 12 = 14 ∧ field 0xEFFF#16 15 12 = 14) ∧
    (field 0xC180#16 15 12 = 12 ∧ field 0xC180#16 8 6 ≠ 7) ∧ (field 0xCFFF#16 15 12 = 12 ∧ field 0xCFFF#16 8 6 = 7) ∧
    (field 0x4800#16 15 12 = 4 ∧ field 0x4800#16 11 11 = 1) ∧ (field 0x4FFF#16 15 12 = 4 ∧ field 0x4FFF#16 11 11 = 1) := by
  decide

theorem witness_operate_words :
    (field 0x1000#16 15 12 = 1 ∧ field 0x1FDF#16 15 12 = 1 ∧ field 0x1FDF#16 5 5 = 0) ∧
    (field 0x1020#16 15 12 = 1 ∧ field 0x1FFF#16 15 12 = 1 ∧ field 0x1FFF#16 5 5 = 1) ∧
    (field 0x5000#16 15 12 = 5 ∧ field 0x5FDF#16 15 12 = 5 ∧ field 0x5FDF#16 5 5 = 0) ∧
    (field 0x5020#16 15 12 = 5 ∧ field 0x5FFF#16 15 12 = 5 ∧ field 0x5FFF#16 5 5 = 1) ∧
    (field 0x9000#16 15 12 = 9 ∧ field 0x9FFF#16 15 12 = 9) := by decide

theorem witness_TrapWordsNameTheirRoutine :
    (field 0xF020#16 15 12 = 15 ∧ field 0xF020#16 7 0 = 0x20) ∧ (field 0xFF21#16 15 12 = 15 ∧ field 0xFF21#16 7 0 = 0x21) ∧
    (field 0xF022#16 15 12 = 15 ∧ field 0xF022#16 7 0 = 0x22) ∧ (field 0xFF23#16 15 12 = 15 ∧ field 0xFF23#16 7 0 = 0x23) ∧
    (field 0xF024#16 15 12 = 15 ∧ field 0xF024#16 7 0 = 0x24) ∧ (field 0xFF25#16 15 12 = 15 ∧ field 0xFF25#16 7 0 = 0x25) := by
  decide

theorem witness_ReservedOpcodesStop :
    field 0x8000#16 15 12 = 8 ∧ field 0x8FFF#16 15 12 = 8 ∧ field 0xD000#16 15 12 = 13 ∧ field 0xDFFF#16 15 12 = 13 := by
  decide

/-! Words and condition codes. -/

/-- The ends of the range of widths, and at each an index below and an index from the width on. -/
theorem witness_ExtensionsAndBytesOfAWord :
    ((1 ≤ 1 ∧ 1 ≤ 16) ∧ 0 < 1 ∧ 1 ≤ 15 ∧ 15 < 16) ∧ ((1 ≤ 15 ∧ 15 ≤ 16) ∧ 14 < 15 ∧ 15 ≤ 15 ∧ 15 < 16) ∧
      ((1 ≤ 16 ∧ 16 ≤ 16) ∧ 15 < 16) := by decide

theorem witness_SetccFollowsTheConditionLaw :
    (0x8000#16 ≠ 0x0000#16 ∧ (0x8000#16).getLsbD 15 = true) ∧ (0xFFFF#16 ≠ 0x0000#16 ∧ (0xFFFF#16).getLsbD 15 = true) ∧
    (0x7FFF#16 ≠ 0x0000#16 ∧ (0x7FFF#16).getLsbD 15 = false) ∧
    (0x0001#16 ≠ 0x0000#16 ∧ (0x0001#16).getLsbD 15 = false) := by decide

/-! Steps. -/

theorem witness_StepRunsTheDecodedInstruction :
    (at' 0xFDFF [(0xFDFF, 0x1DBD)]).run = .running ∧ (at' 0xFDFF [(0xFDFF, 0x1DBD)]).pc ≠ 0xFE00#16 ∧
      decodeWord ((at' 0xFDFF [(0xFDFF, 0x1DBD)]).mem.read 0xFDFF) = .addImm .r6 .r6 (-3) := by decide

/-- The three clauses: a byte, the end of the input, no answer. -/
theorem witness_FetchFromKbsrPolls (input : List ConsoleAnswer) :
    (waiting 0xFE00 input).Inv ∧ (waiting 0xFE00 input).run = .running ∧ (waiting 0xFE00 input).pc = 0xFE00#16 ∧
      (waiting 0xFE00 input).input = input := ⟨inv_waiting _ _, rfl, rfl, rfl⟩

theorem witness_HostAnswerLiftsTheHold :
    (at' 0x3000 [(0x3000, 0xF020)]).run = .running ∧
      (match step (at' 0x3000 [(0x3000, 0xF020)]) with | .fault f => f == .awaitingInput | _ => false) = true := by decide

theorem witness_UntakenAnswersDoNotChangeAStep :
    ∃ t, step { at' 0x3000 [(0x3000, 0xF020)] with input := [.byte 0x41] } = .next t := ⟨_, rfl⟩

theorem witness_StepKeepsTheInvariant :
    ∃ t, (at' 0x3000 [(0x3000, 0x3000)]).Inv ∧ step (at' 0x3000 [(0x3000, 0x3000)]) = .next t :=
  ⟨_, ⟨by decide, by decide, by decide⟩, rfl⟩

theorem witness_StepUsesThePortsInOrder :
    ∃ t, step { at' 0x3000 [(0x3000, 0xF023)] with input := [.byte 0x41, .byte 0x42] } = .next t ∧
      t.input = [.byte 0x42#8] ∧ t.output = [.byte 0x3F#8, .byte 0x41#8, .flush] := ⟨_, rfl, by decide, by decide⟩

/-- A stop with exit status 1 and one with IO_FAIL_STATUS. -/
theorem witness_StopsHaveTheirExitStatus :
    (∃ t, (at' 0x3000 [(0x3000, 0xF025)]).Inv ∧ step (at' 0x3000 [(0x3000, 0xF025)]) = .next t ∧
      t.run = .stopped .halt 1) ∧
    ∃ t, (waiting 0xFE00 [.eof]).Inv ∧ step (waiting 0xFE00 [.eof]) = .next t ∧
      t.run = .stopped (.ioFailure .inputEnd) 2 :=
  ⟨⟨_, ⟨by decide, by decide, by decide⟩, rfl, by decide⟩, ⟨_, inv_waiting _ _, rfl, by decide⟩⟩

theorem witness_StopsHaveTheirRaisers :
    (∃ t, exec .halt st = .next t ∧ t.run = .stopped .halt 1) ∧
    (∃ t, exec (.trap 0x1F) st = .next t ∧ t.run = .stopped (.unknownTrap 0x1F#8) 1) ∧
    (∃ t, exec (.trap 0x26) st = .next t ∧ t.run = .stopped (.unknownTrap 0x26#8) 1) ∧
    (∃ t, exec .rti st = .next t ∧ t.run = .stopped (.reservedOpcode 0x8#4) 1) ∧
    (∃ t, exec .res st = .next t ∧ t.run = .stopped (.reservedOpcode 0xD#4) 1) ∧
    (∃ t, exec .getc (waiting 0 [.eof]) = .next t ∧ t.run = .stopped (.ioFailure .inputEnd) 2) ∧
    (∃ t, exec (.ld .r0 0) (waiting 0xFE00 [.eof]) = .next t ∧ t.run = .stopped (.ioFailure .inputEnd) 2) ∧
    ∃ t, exec .out { st with outputBudget := some 0 } = .next t ∧ t.run = .stopped (.ioFailure .outputFail) 2 :=
  ⟨⟨_, rfl, by decide⟩, ⟨_, rfl, by decide⟩, ⟨_, rfl, by decide⟩, ⟨_, rfl, by decide⟩, ⟨_, rfl, by decide⟩,
    ⟨_, rfl, by decide⟩, ⟨_, rfl, by decide⟩, ⟨_, rfl, by decide⟩⟩

/-- From reset: the first 0xFE00 steps over empty memory. -/
theorem witness_NeverTakenBranchesSlide :
    State.reset.run = .running ∧
    ∀ k, k < 0xFE00 → State.reset.pc + BitVec.ofNat 16 k ≠ 0xFE00#16 ∧
      (State.reset.mem.read (State.reset.pc + BitVec.ofNat 16 k)).toNat < 0x200 := by
  refine ⟨rfl, fun k hk => ⟨?_, by show (0 : Nat) < 512; decide⟩⟩
  show 0x0000#16 + BitVec.ofNat 16 k ≠ 0xFE00#16
  bv_omega

/-! Whole-machine rules: a TRAP and r7, a store, a load that polls, a console read. -/

theorem witness_RegistersHaveTheirWriters :
    (∃ t, exec .out st = .next t ∧ Instr.dest .out ≠ some .r7) ∧
    (∃ t, exec (.st .r1 0) st = .next t ∧ Instr.dest (.st .r1 0) ≠ some .r1) ∧
    ∃ t, exec (.ld .r0 0) (waiting 0xFE00 [.byte 1]) = .next t ∧ Instr.dest (.ld .r0 0) ≠ some .r1 :=
  ⟨⟨_, rfl, by decide⟩, ⟨_, rfl, by decide⟩, ⟨_, rfl, by decide⟩⟩

theorem witness_CondHasItsWriters :
    (∃ t, exec .getc (waiting 0 [.byte 0]) = .next t ∧ Instr.writesCond .getc = false) ∧
    ∃ t, exec (.sti .r0 0) (waiting 0xFE00 [.byte 1]) = .next t ∧ Instr.writesCond (.sti .r0 0) = false :=
  ⟨⟨_, rfl, rfl⟩, ⟨_, rfl, rfl⟩⟩

theorem witness_OnlyBranchReadsCond :
    (∃ t, (∀ nzp off, Instr.inp ≠ .br nzp off) ∧ exec .inp (waiting 0 [.byte 0]) = .next t) ∧
    ∃ t, (∀ nzp off, Instr.jsrr .r7 ≠ .br nzp off) ∧ exec (.jsrr .r7) st = .next t :=
  ⟨⟨_, fun _ _ h => (by cases h), rfl⟩, ⟨_, fun _ _ h => (by cases h), rfl⟩⟩

theorem witness_PcHasItsWriters :
    ∃ t, exec (.trap 0x25) st = .next t ∧ Instr.movesPc (.trap 0x25) = false := ⟨_, rfl, rfl⟩

/-- A load that polls, an instruction that reads no memory, a load that takes no input, and the two neighbours of the words
that the statement excepts. -/
theorem witness_MemoryHasItsWriters :
    (∃ t, exec (.ld .r0 0) (waiting 0xFE00 [.byte 1]) = .next t ∧ Instr.storesMemory (.ld .r0 0) = false) ∧
    (∃ t, exec .inp (waiting 0 [.byte 0]) = .next t ∧ Instr.storesMemory .inp = false ∧ Instr.readsMemory .inp = false) ∧
    (∃ t, exec (.ld .r0 0) (waiting 0xFE02 [.byte 1]) = .next t ∧ t.input = (waiting 0xFE02 [.byte 1]).input) ∧
    (0xFE01#16 ≠ 0xFE00#16 ∧ 0xFE01#16 ≠ 0xFE02#16) :=
  ⟨⟨_, rfl, rfl⟩, ⟨_, rfl, rfl, rfl⟩, ⟨_, rfl, rfl⟩, by decide⟩

theorem witness_PortsHaveTheirUsers :
    (∃ t, exec .out st = .next t ∧ Instr.readsMemory .out = false ∧ Instr.readsConsole .out = false) ∧
    ∃ t, exec .getc (waiting 0 [.byte 0]) = .next t ∧ Instr.writesConsole .getc = false :=
  ⟨⟨_, rfl, rfl, rfl⟩, ⟨_, rfl, rfl⟩⟩

/-! Loads and stores: the addresses KBSR_ADDR and beside it, and each answer of the host. -/

theorem witness_LdAndLdrLoadTheirWord (input : List ConsoleAnswer) :
    ((waiting 0xFE00 input).Inv ∧ (waiting 0xFE00 input).pcRel9 0 = 0xFE00#16 ∧
      (waiting 0xFE00 input).pcRel9 (-1) ≠ 0xFE00#16 ∧ (waiting 0xFE00 input).input = input) ∧
    (((waiting 0x3000 input).setReg .r1 0xFE1F).Inv ∧
      ((waiting 0x3000 input).setReg .r1 0xFE1F).basePlus .r1 (-31) = 0xFE00#16 ∧
      ((waiting 0x3000 input).setReg .r1 0xFE1F).basePlus .r1 (-30) ≠ 0xFE00#16 ∧
      ((waiting 0x3000 input).setReg .r1 0xFE1F).input = input) :=
  ⟨⟨inv_waiting _ _, by show addWrap 0xFE00#16 (sext (0 : BitVec 9)) = 0xFE00#16; decide,
      by show addWrap 0xFE00#16 (sext (-1 : BitVec 9)) ≠ 0xFE00#16; decide, rfl⟩,
    ⟨⟨rfl, by show (2 : Nat) ≠ 0; decide, rfl⟩,
      by show addWrap 0xFE1F#16 (sext (-31 : BitVec 6)) = 0xFE00#16; decide,
      by show addWrap 0xFE1F#16 (sext (-30 : BitVec 6)) ≠ 0xFE00#16; decide, rfl⟩⟩

/-- Also the witness of `StiStoresThroughItsPointer`: a pointer at KBSR_ADDR, with any answers waiting, and one beside it. -/
theorem witness_LdiLoadsThroughItsPointer (input : List ConsoleAnswer) :
    (waiting 0xFE00 input).Inv ∧ (waiting 0xFE00 input).pcRel9 0 = 0xFE00#16 ∧
      (waiting 0xFE00 input).pcRel9 1 ≠ 0xFE00#16 ∧ (waiting 0xFE00 input).input = input :=
  ⟨inv_waiting _ _, by show addWrap 0xFE00#16 (sext (0 : BitVec 9)) = 0xFE00#16; decide,
    by show addWrap 0xFE00#16 (sext (1 : BitVec 9)) ≠ 0xFE00#16; decide, rfl⟩

theorem witness_StAndStrStoreTheirWord : (at' 0xFE00 [(0xFE00, 0x1234)]).Inv := ⟨by decide, by decide, by decide⟩

theorem witness_ConsecutivePollsTakeOneByteEach (b1 b2 : Byte) (rest : List ConsoleAnswer) :
    (waiting 0 (.byte b1 :: .byte b2 :: rest)).Inv ∧
      (waiting 0 (.byte b1 :: .byte b2 :: rest)).input = .byte b1 :: .byte b2 :: rest ∧
      0xFDFF#16 ≠ 0xFE00#16 ∧ 0xFE01#16 ≠ 0xFE00#16 := ⟨inv_waiting _ _, rfl, by decide, by decide⟩

/-- ST, STR, and STI through a pointer in memory, each into the word at 0x3001. -/
theorem witness_StoreIsSeenByTheNextFetch :
    (∃ t u, (at' 0x3000 [(0x3000, 0x3200)]).Inv ∧ fetch (at' 0x3000 [(0x3000, 0x3200)]) = .ok 0x3200 u ∧
      StoresTo (.st .r1 0) u 0x3001 0x0000 ∧ step (at' 0x3000 [(0x3000, 0x3200)]) = .next t) ∧
    (∃ t u, ((at' 0x3000 [(0x3000, 0x7241)]).setReg .r1 0x3000).Inv ∧
      fetch ((at' 0x3000 [(0x3000, 0x7241)]).setReg .r1 0x3000) = .ok 0x7241 u ∧
      StoresTo (.str .r1 .r1 1) u 0x3001 0x3000 ∧ step ((at' 0x3000 [(0x3000, 0x7241)]).setReg .r1 0x3000) = .next t) ∧
    (∃ t u, (at' 0x3000 [(0x3000, 0xB201), (0x3002, 0x3001)]).Inv ∧
      fetch (at' 0x3000 [(0x3000, 0xB201), (0x3002, 0x3001)]) = .ok 0xB201 u ∧
      StoresTo (.sti .r1 1) u 0x3001 0x0000 ∧ step (at' 0x3000 [(0x3000, 0xB201), (0x3002, 0x3001)]) = .next t) ∧
    st.run = .running ∧ 0x3000#16 + 1 ≠ 0xFE00#16 ∧
    decodeWord 0x3200 = .st .r1 0 ∧ decodeWord 0x7241 = .str .r1 .r1 1 ∧ decodeWord 0xB201 = .sti .r1 1 :=
  ⟨⟨_, _, ⟨by decide, by decide, by decide⟩, rfl, ⟨by decide, by decide⟩, rfl⟩,
    ⟨_, _, ⟨by decide, by decide, by decide⟩, rfl, ⟨by decide, by decide⟩, rfl⟩,
    ⟨_, _, ⟨by decide, by decide, by decide⟩, rfl, ⟨⟨_, rfl⟩, by decide⟩, rfl⟩, rfl, by decide, by decide, by decide, by decide⟩

/-- A pointer that is itself polled: under OR the status 0xFDFF of a KBSR that held 0x7DFF is the incremented pc. -/
theorem witness_StoreIsSeenByTheNextFetch_polled :
    StoresTo (.sti .r1 1)
      { at' 0xFDFF [(0xFE00, 0x7DFF)] with
        input := [.byte 0x41], params := { st.params with kbsrReadyMode := .or } } 0xFDFF 0x0000 :=
  ⟨⟨_, rfl⟩, by decide⟩

/-- A store that is itself fetched from KBSR_ADDR: under OR the status of a KBSR that held 0x3200 is 0xB200, STI R1, #0, whose
pointer at 0xFE01 is its own address. -/
theorem witness_StoreIsSeenByTheNextFetch_from_kbsr :
    ∃ u, fetch { at' 0xFE00 [(0xFE00, 0x3200), (0xFE01, 0xFE01)] with
        input := [.byte 0x41], params := { st.params with kbsrReadyMode := .or } } = .ok 0xB200 u ∧
      decodeWord 0xB200 = .sti .r1 0 ∧ StoresTo (.sti .r1 0) u 0xFE01 0x0000 :=
  ⟨_, rfl, by decide, ⟨_, rfl⟩, by decide⟩

/-! Control transfer. -/

theorem witness_JsrrLinksAndJumps :
    (Reg.r0 ≠ .r7 ∧ Reg.r6 ≠ .r7) ∧ st.params.jsrrOrder = .writeR7First ∧
    State.params { st with params := { st.params with jsrrOrder := .readBaseFirst } } =
      { st.params with jsrrOrder := .readBaseFirst } := by decide

/-! TRAP: the host's answers, and what it accepts. -/

theorem witness_GetcReadsAByte (input : List ConsoleAnswer) : (waiting 0x3001 input).input = input := rfl

/-- OUT and HALT: the host accepts both requests, exactly both, only the first, none. -/
theorem witness_OutputResult :
    st.accepts 2 ∧ State.accepts { st with outputBudget := some 2 } 2 ∧
    (State.outputBudget { st with outputBudget := some 1 } = some 1 ∧
      1 < (st.params.haltNotice.map ConsoleEvent.byte ++ [ConsoleEvent.flush]).length) ∧
    (State.outputBudget { st with outputBudget := some 0 } = some 0 ∧ 0 < 2) := by
  refine ⟨fun k h => ?_, fun k h => ?_, by decide, by decide⟩
  · cases h
  · cases h; exact Nat.le_refl _

/-- PUTS and PUTSP: an empty string, and a string of two words that wraps past 0xFFFF. -/
theorem witness_PutsWritesTheString :
    StringAt ((at' 0 []).setReg .r0 0xFE01).mem (((at' 0 []).setReg .r0 0xFE01).reg .r0) [] ∧
    StringAt (at' 0 [(0xFFFF, 0x0041), (0x0000, 0x4200)]).mem 0xFFFF [0x0041, 0x4200] := by
  refine ⟨⟨by decide, by decide⟩, ⟨by decide, by decide, by decide, by decide, by decide, by decide, ?_⟩⟩
  exact ⟨by decide, by decide⟩

/-- Walks that start at KBSR_ADDR and that come to it after two words, and each answer of the host. -/
theorem witness_PutsPollsAtKbsr (input : List ConsoleAnswer) :
    (((waiting 0 input).setReg .r0 0xFE00).Inv ∧ StringToKbsr ((waiting 0 input).setReg .r0 0xFE00).mem 0xFE00 [] ∧
      ((waiting 0 input).setReg .r0 0xFE00).input = input ∧ ((waiting 0 input).setReg .r0 0xFE00).accepts 0) ∧
    ((at' 0 [(0xFDFE, 0x0041), (0xFDFF, 0x4200)]).Inv ∧
      StringToKbsr (at' 0 [(0xFDFE, 0x0041), (0xFDFF, 0x4200)]).mem 0xFDFE [0x0041, 0x4200]) ∧
    (0x00#8).toNat = 0 ∧ (0x01#8).toNat ≠ 0 ∧ StringAt (waiting 0 input).mem 0xFE01 [] := by
  refine ⟨⟨⟨rfl, by show (2 : Nat) ≠ 0; decide, rfl⟩, rfl, rfl, fun _ _ => Nat.zero_le _⟩,
    ⟨⟨by decide, by decide, by decide⟩, ?_⟩, by decide, by decide, by decide, rfl⟩
  exact ⟨by decide, by decide, by decide, by decide, by decide, by decide, by show _ = _; decide⟩

/-- The host fails a request before the poll, the flush after a zero byte, and the second request for the status; and the two
instructions are those of the statement. -/
theorem witness_PutsPollsAtKbsr_failures :
    (State.outputBudget { st with outputBudget := some 2 } = some 2 ∧
      2 < (List.flatMap putspEvents [0x0041#16, 0x4200#16]).length) ∧
    (State.outputBudget { st with outputBudget := some 3 } = some 3 ∧
      (List.flatMap putspEvents [0x0041#16, 0x4200#16]).length = 3) ∧
    (State.outputBudget { st with outputBudget := some 4 } = some 4 ∧ 3 ≤ 4 ∧
      4 < (List.flatMap putspEvents [0x0041#16, 0x4200#16] ++ putspEvents 0x8000#16).length) := by decide

/-- A PUTS walk that arrives at KBSR_ADDR, and a PUTSP walk (rule R176): a word, the status, the word at 0xFE01, the byte
in KBDR at 0xFE02, the flush. -/
theorem test_walk_arrives_at_kbsr :
    after { (at' 0x3000 [(0x3000, 0xF022), (0xFDFF, 0x0041), (0xFE01, 0x0042)]).setReg .r0 0xFDFF with input := [.byte 0x07] }
      State.output = some [.byte 0x41#8, .byte 0x00#8, .byte 0x42#8, .byte 0x07#8, .flush] ∧
    after { (at' 0x3000 [(0x3000, 0xF024), (0xFDFF, 0x0041), (0xFE01, 0x0042)]).setReg .r0 0xFDFF with input := [.byte 0x07] }
      State.output = some [.byte 0x41#8, .byte 0x00#8, .byte 0x80#8, .byte 0x42#8, .byte 0x07#8, .flush] := by decide

/-- `st` has a prompt of one byte: all three requests accepted, the flush failed, the echo failed, the prompt failed. -/
theorem witness_InPromptsReadsAndEchoes (input : List ConsoleAnswer) :
    (waiting 0 input).input = input ∧ [ConsoleEvent.byte 0x3F#8] = (waiting 0 input).params.inPrompt.map .byte ∧
    (waiting 0 input).accepts (1 + 2) ∧ (waiting 0 input).accepts 1 ∧
    State.outputBudget { waiting 0 input with outputBudget := some 2 } = some (1 + 1) ∧
    State.outputBudget { waiting 0 input with outputBudget := some 1 } = some 1 ∧
    (State.outputBudget { waiting 0 input with outputBudget := some 0 } = some 0 ∧ 0 < 1) := by
  refine ⟨rfl, rfl, ?_, ?_, rfl, rfl, rfl, by decide⟩ <;> intro k h <;> cases h

theorem witness_TrapRunsTheRoutineOfItsVector :
    (0x00#8).toNat < 0x20 ∧ (0x1F#8).toNat < 0x20 ∧ 0x25 < (0x26#8).toNat ∧ 0x25 < (0xFF#8).toNat := by decide

/-! The program image. -/

/-- Two words at 0xFFFF: the second lies at 0x0000, and 0x0001 and 0xFFFE are outside. -/
theorem witness_ImageLoadWritesItsWords :
    st.Inv ∧ [0x1111#16, 0x2222#16].length ≤ 65536 ∧ 1 < [0x1111#16, 0x2222#16].length ∧
    (∀ k, k < [0x1111#16, 0x2222#16].length → 0x0001#16 ≠ 0xFFFF#16 + BitVec.ofNat 16 k) ∧
    ∀ k, k < [0x1111#16, 0x2222#16].length → 0xFFFE#16 ≠ 0xFFFF#16 + BitVec.ofNat 16 k :=
  ⟨inv_st, by decide, by decide, by decide, by decide⟩

theorem witness_ImageLoadCornerCases : ([] : List Byte).length < 2 ∧ [0x30#8].length < 2 := by decide

theorem witness_RepeatedImageLoadChangesNothing :
    ∃ t, st.Inv ∧ loadImage [0xFF, 0xFF, 0x11, 0x11, 0x22, 0x22] st = .ok t := ⟨_, inv_st, rfl⟩

end Sys2Proof.Tests
end

section
/-! PROOFS. Rules about the model's operations that the proofs share: the step by its fetch, and TRAP by its routines (rules
R80, R170). -/

namespace Sys2Proof.Machine

/-- The step of a RUNNING block whose fetch completes runs the fetched instruction (rule R80). -/
theorem step_of_fetch_ok {s u : State} {w : Word} (hr : s.run = .running) (hf : fetch s = .ok w u) :
    step s = exec (decodeWord w) u := by
  simp [step, hr, hf]

/-- The step of a RUNNING block whose fetch stops is that stop (decision D28). -/
theorem step_of_fetch_stop {s t : State} (hr : s.run = .running) (hf : fetch s = .stop t) : step s = .next t := by
  simp [step, hr, hf]

/-- The step of a RUNNING block whose fetch holds is held (rules R51, R80). -/
theorem step_of_fetch_stuck {s : State} {f : Fault} (hr : s.run = .running) (hf : fetch s = .stuck f) :
    step s = .fault f := by
  simp [step, hr, hf]

/-- TRAP is one of the six routines, or the stop of an unknown vector (rule R170). -/
theorem execTrap_cases (v : BitVec 8) :
    execTrap v = getcRoutine ∨ execTrap v = outRoutine ∨ execTrap v = putsRoutine ∨ execTrap v = inRoutine ∨
      execTrap v = putspRoutine ∨ execTrap v = haltRoutine ∨ execTrap v = unknownTrap v := by
  simp only [funext_iff, execTrap]
  split_ifs <;> simp

end Sys2Proof.Machine
end

section
/-! PROOFS. Words: the statements' bit fields `field w hi lo` against the decoder's slices, the extensions and bytes of a
word, and the displacements (rules R10-R14, R71-R73, R135). -/

namespace Sys2Proof.Machine

/-! ### Bit fields (rules R10, R14) -/

/-- `field w hi lo` is the value of the slice of `len` bits from `lo`. -/
theorem field_eq_extractLsb' (w : Word) {hi lo len : Nat} (h : hi - lo + 1 = len) :
    field w hi lo = (w.extractLsb' lo len).toNat := by
  rw [BitVec.extractLsb'_toNat, Nat.shiftRight_eq_div_pow, field, h]

/-- A field of one bit. -/
theorem field_bit (w : Word) (i : Nat) : field w i i = (w.getLsbD i).toNat := by
  rw [field, Nat.sub_self, BitVec.getLsbD, Nat.toNat_testBit, Nat.zero_add, Nat.pow_one]

theorem opcodeOf_eq_of_field {w : Word} {n : Nat} (h : field w 15 12 = n) : opcodeOf w = BitVec.ofNat 4 n := by
  rw [← h, field_eq_extractLsb' w rfl, BitVec.ofNat_toNat, BitVec.setWidth_eq]
  rfl

theorem longFlag_eq_false {w : Word} (h : field w 11 11 = 0) : longFlag w = false := by
  rw [field_bit] at h
  exact Bool.toNat_eq_zero.mp h

/-- A 3-bit field selects the register with its value as index (rule R72). -/
theorem regNo_toNat (b : BitVec 3) : regNo b.toNat = Reg.ofBits b := by
  revert b; decide

theorem regNo_field11to9 (w : Word) : regNo (field w 11 9) = regAt11 w := by
  rw [field_eq_extractLsb' w rfl]
  exact regNo_toNat _

theorem regNo_field8to6 (w : Word) : regNo (field w 8 6) = regAt8 w := by
  rw [field_eq_extractLsb' w rfl]
  exact regNo_toNat _

theorem ofNat_field_eq_extractLsb' (w : Word) {hi lo len : Nat} (h : hi - lo + 1 = len) :
    BitVec.ofNat len (field w hi lo) = w.extractLsb' lo len := by
  rw [field_eq_extractLsb' w h, BitVec.ofNat_toNat, BitVec.setWidth_eq]

/-- A vector outside 0x20-0x25 names no routine (rules R170, R181). -/
theorem decodeTrap_unknown {v : BitVec 8} (h : v.toNat < 0x20 ∨ 0x25 < v.toNat) : decodeTrap v = .trap v := by
  have hne (u : Byte) (hu : 0x20 ≤ u.toNat ∧ u.toNat ≤ 0x25) : v ≠ u := by
    rintro rfl
    omega
  rw [decodeTrap, if_neg (hne vectGetc (by decide)), if_neg (hne vectOut (by decide)),
    if_neg (hne vectPuts (by decide)), if_neg (hne vectIn (by decide)), if_neg (hne vectPutsp (by decide)),
    if_neg (hne vectHalt (by decide))]

/-- Settles O5: the decoder's slices are the fields of the rules, one opcode at a time. -/
theorem operandFieldsStandAtTheirBits : Obligations.OperandFieldsStandAtTheirBits := by
  intro w
  have hoff9 : BitVec.ofNat 9 (field w 8 0) = pcOffset9Of w := ofNat_field_eq_extractLsb' w rfl
  have hoff6 : BitVec.ofNat 6 (field w 5 0) = offset6Of w := ofNat_field_eq_extractLsb' w rfl
  have hvect : BitVec.ofNat 8 (field w 7 0) = trapvect8Of w := ofNat_field_eq_extractLsb' w rfl
  have hvectNat : field w 7 0 = (trapvect8Of w).toNat := field_eq_extractLsb' w rfl
  rw [regNo_field11to9, regNo_field8to6, hoff9, hoff6, hvect, hvectNat]
  refine ⟨fun h => ?_, fun h hl => ?_, fun h => ?_, fun h => ?_, fun h => ?_, fun h hv => ?_⟩ <;>
    replace h := opcodeOf_eq_of_field h
  · exact decodeWord_ld h
  · exact decodeWord_jsrr h (longFlag_eq_false hl)
  · exact decodeWord_ldr h
  · exact decodeWord_ldi h
  · exact decodeWord_sti h
  · rw [decodeWord_trap h, decodeTrap_unknown hv]

/-! ### Extensions, bytes and addresses (rules R11, R12, R72, R135) -/

/-- Below the field's width sign extension keeps the field's bits. -/
theorem sext_getLsbD_of_lt {n : Nat} (v : BitVec n) {i : Nat} (hn : n ≤ 16) (hi : i < n) :
    (sext v).getLsbD i = v.getLsbD i := by
  rw [sext, BitVec.getLsbD_signExtend, if_pos hi, decide_eq_true (by omega : i < 16), Bool.true_and]

/-- From the field's width on sign extension repeats the sign bit. -/
theorem sext_getLsbD_of_le {n : Nat} (v : BitVec n) {i : Nat} (hi : n ≤ i) (h16 : i < 16) :
    (sext v).getLsbD i = v.getLsbD (n - 1) := by
  rw [sext, BitVec.getLsbD_signExtend, if_neg (by omega), decide_eq_true h16, Bool.true_and, BitVec.msb_eq_getLsbD_last]

theorem sext_toInt {n : Nat} (v : BitVec n) (hn : n ≤ 16) : (sext v).toInt = v.toInt :=
  BitVec.toInt_signExtend_of_le hn

theorem lowByte_toNat (w : Word) : (lowByte w).toNat = field w 7 0 := by
  rw [field_eq_extractLsb' w rfl]
  rfl

theorem highByte_toNat (w : Word) : (highByte w).toNat = field w 15 8 := by
  rw [field_eq_extractLsb' w rfl]
  rfl

/-- Settles O7: the bits of a sign extension below and above the field, the value of a zero extension, and the two bytes. -/
theorem extensionsAndBytesOfAWord : Obligations.ExtensionsAndBytesOfAWord :=
  ⟨fun _ v _ hn => ⟨fun _ hi => sext_getLsbD_of_lt v hn hi, fun _ hi h16 => sext_getLsbD_of_le v hi h16⟩,
    zext_toNat, fun w => ⟨lowByte_toNat w, highByte_toNat w⟩⟩

/-- A signed displacement added to an address wraps modulo 65536. -/
theorem addWrap_sext_toNat (a : Word) {n : Nat} (v : BitVec n) (hn : n ≤ 16) :
    ((addWrap a (sext v)).toNat : Int) = ((a.toNat : Int) + v.toInt) % 65536 := by
  have hmod : v.toInt % 65536 = ((sext v).toNat : Int) % 65536 := by
    rw [← sext_toInt v hn, BitVec.toInt_eq_toNat_bmod]
    exact Int.bmod_emod
  rw [addWrap_toNat]
  omega

/-- Settles O8: each address form adds its sign-extended displacement to its base. -/
theorem effectiveAddressesWrap : Obligations.EffectiveAddressesWrap :=
  fun _ off9 off11 off6 _ =>
    ⟨addWrap_sext_toNat _ off9 (by decide), addWrap_sext_toNat _ off11 (by decide),
      addWrap_sext_toNat _ off6 (by decide)⟩

end Sys2Proof.Machine
end

section
/-! PROOFS. Untaken answers: a step with more answers waiting behind those it takes does the same and leaves them waiting
(rules R8, R9, R16). Each operation of the model is compared with itself run from the state with the longer input. -/

namespace Sys2Proof.Machine

/-- `s` with the answers `more` waiting behind those that the host has already given. -/
def State.withMore (s : State) (more : List ConsoleAnswer) : State := { s with input := s.input ++ more }

/-- `y` ends as `x` does, with `more` left behind. A flow `x` that holds is not compared: with `more` it may go on. -/
def Flow.SameWithMore {α : Type} (more : List ConsoleAnswer) (x y : Flow α) : Prop :=
  match x with
  | .ok a s => y = .ok a (s.withMore more)
  | .stop s => y = .stop (s.withMore more)
  | .stuck _ => True

/-- Output requests that end as `x` does, with `more` left behind. -/
def Written.withMore (more : List ConsoleAnswer) : Written → Written
  | .done s => .done (s.withMore more)
  | .failed s => .failed (s.withMore more)

/-- Where `o` is a next state, `o'` is that state with `more` left behind. -/
def SameNextWithMore (more : List ConsoleAnswer) (o o' : Host.Outcome State Fault Refusal) : Prop :=
  ∀ t, o = .next t → o' = .next (t.withMore more)

/-! ### Sequencing -/

theorem Flow.SameWithMore.andThen {α β : Type} {more : List ConsoleAnswer} {x y : Flow α} {k k' : α → State → Flow β}
    (hx : x.SameWithMore more y) (hk : ∀ a s, (k a s).SameWithMore more (k' a (s.withMore more))) :
    (x.andThen k).SameWithMore more (y.andThen k') := by
  cases x with
  | ok a s => obtain rfl := hx; exact hk a s
  | stop s => obtain rfl := hx; rfl
  | stuck f => trivial

theorem Flow.SameWithMore.finish {α : Type} {more : List ConsoleAnswer} {x y : Flow α} {k : α → State → State}
    (hx : x.SameWithMore more y) (hk : ∀ a s, k a (s.withMore more) = (k a s).withMore more) :
    SameNextWithMore more (x.finish k) (y.finish k) := by
  intro t ht
  rcases Flow.finish_eq_next ht with ⟨a, s, rfl, rfl⟩ | rfl <;> obtain rfl := hx
  · rw [Flow.finish_ok, hk]
  · rfl

theorem SameNextWithMore.next (more : List ConsoleAnswer) (s : State) :
    SameNextWithMore more (.next s) (.next (s.withMore more)) := by
  rintro _ ⟨⟩
  rfl

/-! ### Output requests -/

theorem Written.andThen_withMore {more : List ConsoleAnswer} (x : Written) {k : State → Written}
    (hk : ∀ s, k (s.withMore more) = (k s).withMore more) :
    (x.withMore more).andThen k = (x.andThen k).withMore more := by
  cases x with
  | done s => exact hk s
  | failed s => rfl

theorem Written.flow_withMore (more : List ConsoleAnswer) (x : Written) :
    x.flow.SameWithMore more (x.withMore more).flow := by
  cases x <;> rfl

theorem Written.state_withMore {more : List ConsoleAnswer} (x : Written) {k : State → State}
    (hk : ∀ s, k (s.withMore more) = (k s).withMore more) :
    (x.withMore more).state k = (x.state k).withMore more := by
  cases x with
  | done s => exact hk s
  | failed s => rfl

theorem emit_withMore (more : List ConsoleAnswer) (e : ConsoleEvent) (s : State) :
    emit e (s.withMore more) = (emit e s).withMore more := by
  have hb : (s.withMore more).outputBudget = s.outputBudget := rfl
  rcases h : s.outputBudget with _ | _ | k
  · rw [emit_never e h, emit_never e (hb.trans h)]; rfl
  · rw [emit_fail e h, emit_fail e (hb.trans h)]; rfl
  · rw [emit_budget e h, emit_budget e (hb.trans h)]; rfl

theorem consoleOut_withMore (more : List ConsoleAnswer) (b : Byte) (s : State) :
    consoleOut b (s.withMore more) = (consoleOut b s).withMore more := emit_withMore more _ s

theorem consoleFlush_withMore (more : List ConsoleAnswer) (s : State) :
    consoleFlush (s.withMore more) = (consoleFlush s).withMore more := emit_withMore more _ s

theorem consoleOutAll_withMore (more : List ConsoleAnswer) (bs : List Byte) (s : State) :
    consoleOutAll bs (s.withMore more) = (consoleOutAll bs s).withMore more := by
  induction bs generalizing s with
  | nil => rfl
  | cons b bs ih =>
    unfold consoleOutAll
    rw [consoleOut_withMore]
    exact Written.andThen_withMore _ ih

theorem putsWord_withMore (more : List ConsoleAnswer) (w : Word) (s : State) :
    putsWord w (s.withMore more) = (putsWord w s).withMore more := consoleOut_withMore more _ s

theorem putspWord_withMore (more : List ConsoleAnswer) (w : Word) (s : State) :
    putspWord w (s.withMore more) = (putspWord w s).withMore more := by
  unfold putspWord
  rw [consoleOut_withMore]
  refine Written.andThen_withMore _ fun t => ?_
  split
  · rfl
  · exact consoleOut_withMore more _ t

/-! ### The console input, MemRead and the fetch -/

theorem consoleIn_sameWithMore (more : List ConsoleAnswer) (s : State) :
    (consoleIn s).SameWithMore more (consoleIn (s.withMore more)) := by
  have hm : (s.withMore more).input = s.input ++ more := rfl
  rcases h : s.input with _ | ⟨⟨b⟩ | _, rest⟩ <;> rw [h] at hm
  · rw [consoleIn_nil h]; trivial
  · rw [consoleIn_byte h, consoleIn_byte hm]; rfl
  · rw [consoleIn_eof h, consoleIn_eof hm]; rfl

theorem State.pollByte_withMore (more : List ConsoleAnswer) (s : State) (b : Byte) :
    (s.withMore more).pollByte b = (s.pollByte b).withMore more := by
  unfold State.pollByte
  split <;> rfl

theorem memRead_sameWithMore (more : List ConsoleAnswer) (a : Word) (s : State) :
    (memRead a s).SameWithMore more (memRead a (s.withMore more)) := by
  by_cases ha : a = kbsrAddr
  · subst ha
    rw [memRead_kbsr, memRead_kbsr]
    refine (consoleIn_sameWithMore more s).andThen fun b t => ?_
    rw [State.pollByte_withMore]
    rfl
  · rw [memRead_plain ha, memRead_plain ha]
    rfl

theorem fetch_sameWithMore (more : List ConsoleAnswer) (s : State) :
    (fetch s).SameWithMore more (fetch (s.withMore more)) :=
  (memRead_sameWithMore more s.pc s).andThen fun _ _ => rfl

/-! ### The walk of PUTS and PUTSP -/

section
variable {more : List ConsoleAnswer} {put : Word → State → Written}
  (hput : ∀ w s, put w (s.withMore more) = (put w s).withMore more)
include hput

theorem walk_sameWithMore (fuel : Nat) (a : Word) (s : State) :
    (walk put fuel a s).SameWithMore more (walk put fuel a (s.withMore more)) := by
  induction fuel generalizing a s with
  | zero => trivial
  | succ fuel ih =>
    rw [walk_succ, walk_succ]
    refine (memRead_sameWithMore more a s).andThen fun w t => ?_
    by_cases hw : w = 0x0000#16
    · rw [if_pos hw, if_pos hw]; rfl
    · rw [if_neg hw, if_neg hw, hput]
      exact (Written.flow_withMore more _).andThen fun _ u => ih _ u

/-- More answers give a walk more fuel too, which changes nothing in a walk that ends. -/
theorem walk_sameWithMore_of_le {n m : Nat} (hnm : n ≤ m) (a : Word) (s : State) :
    (walk put n a s).SameWithMore more (walk put m a (s.withMore more)) := by
  have h := walk_sameWithMore hput n a s
  cases hw : walk put n a s with
  | stuck f => trivial
  | ok _ t | stop t =>
    rw [hw] at h
    exact (walk_more_fuel hnm (by rw [h]; nofun)).trans h

theorem putString_sameNextWithMore (s : State) :
    SameNextWithMore more (putString put s) (putString put (s.withMore more)) := by
  have hfuel : walkFuel s ≤ walkFuel (s.withMore more) :=
    Nat.mul_le_mul_left _ (Nat.add_le_add_right (List.sublist_append_left s.input more).length_le 1)
  refine Flow.SameWithMore.finish ?_ fun _ _ => rfl
  refine (walk_sameWithMore_of_le hput hfuel (s.reg .r0) s).andThen fun _ t => ?_
  rw [consoleFlush_withMore]
  exact Written.flow_withMore more _

end

/-! ### The routines of TRAP -/

theorem getcRoutine_sameNextWithMore (more : List ConsoleAnswer) (s : State) :
    SameNextWithMore more (getcRoutine s) (getcRoutine (s.withMore more)) :=
  (consoleIn_sameWithMore more s).finish fun _ _ => rfl

/-- A routine that only outputs and then does `k`. -/
theorem SameNextWithMore.written {more : List ConsoleAnswer} {x y : Written} {k : State → State}
    (hy : y = x.withMore more) (hk : ∀ s, k (s.withMore more) = (k s).withMore more) :
    SameNextWithMore more (.next (x.state k)) (.next (y.state k)) := by
  rw [hy, Written.state_withMore x hk]
  exact .next more _

theorem outRoutine_sameNextWithMore (more : List ConsoleAnswer) (s : State) :
    SameNextWithMore more (outRoutine s) (outRoutine (s.withMore more)) := by
  refine .written ?_ fun _ => rfl
  rw [consoleOut_withMore]
  exact Written.andThen_withMore _ (consoleFlush_withMore more)

theorem haltRoutine_sameNextWithMore (more : List ConsoleAnswer) (s : State) :
    SameNextWithMore more (haltRoutine s) (haltRoutine (s.withMore more)) := by
  refine .written ?_ fun _ => rfl
  rw [consoleOutAll_withMore]
  exact Written.andThen_withMore _ (consoleFlush_withMore more)

theorem inRoutine_sameNextWithMore (more : List ConsoleAnswer) (s : State) :
    SameNextWithMore more (inRoutine s) (inRoutine (s.withMore more)) := by
  refine Flow.SameWithMore.finish ?_ fun _ _ => rfl
  rw [consoleOutAll_withMore]
  refine (Written.flow_withMore more _).andThen fun _ s1 => ?_
  refine (consoleIn_sameWithMore more s1).andThen fun b s2 => ?_
  rw [consoleOut_withMore]
  refine (Written.flow_withMore more _).andThen fun _ s3 => ?_
  rw [show (s3.withMore more).writeResult .r0 (zext b) = (s3.writeResult .r0 (zext b)).withMore more from rfl,
    consoleFlush_withMore]
  exact Written.flow_withMore more _

theorem execTrap_sameNextWithMore (more : List ConsoleAnswer) (v : BitVec 8) (s : State) :
    SameNextWithMore more (execTrap v s) (execTrap v (s.withMore more)) := by
  rcases execTrap_cases v with h | h | h | h | h | h | h <;> rw [h]
  · exact getcRoutine_sameNextWithMore more s
  · exact outRoutine_sameNextWithMore more s
  · exact putString_sameNextWithMore (putsWord_withMore more) s
  · exact inRoutine_sameNextWithMore more s
  · exact putString_sameNextWithMore (putspWord_withMore more) s
  · exact haltRoutine_sameNextWithMore more s
  · exact .next more _

/-! ### Every instruction, and the step -/

theorem execBr_sameNextWithMore (more : List ConsoleAnswer) (nzp : BitVec 3) (off : BitVec 9) (s : State) :
    SameNextWithMore more (execBr nzp off s) (execBr nzp off (s.withMore more)) := by
  show SameNextWithMore more _ (.next (if s.cond.meets nzp then _ else _))
  unfold execBr
  split <;> exact .next more _

theorem exec_sameNextWithMore (more : List ConsoleAnswer) (i : Instr) (s : State) :
    SameNextWithMore more (exec i s) (exec i (s.withMore more)) := by
  cases i with
  | addReg | addImm | andReg | andImm | not | lea | st | str | jsr | jsrr | jmp | ret | rti | res =>
    exact .next more _
  | br nzp off => exact execBr_sameNextWithMore more nzp off s
  | ld | ldr => exact (memRead_sameWithMore more _ s).finish fun _ _ => rfl
  | ldi => exact ((memRead_sameWithMore more _ s).andThen fun a t => memRead_sameWithMore more a t).finish fun _ _ => rfl
  | sti => exact (memRead_sameWithMore more _ s).finish fun _ _ => rfl
  | trap v => exact execTrap_sameNextWithMore more v s
  | getc => exact getcRoutine_sameNextWithMore more s
  | out => exact outRoutine_sameNextWithMore more s
  | puts => exact putString_sameNextWithMore (putsWord_withMore more) s
  | inp => exact inRoutine_sameNextWithMore more s
  | putsp => exact putString_sameNextWithMore (putspWord_withMore more) s
  | halt => exact haltRoutine_sameNextWithMore more s

theorem step_sameNextWithMore (more : List ConsoleAnswer) (s : State) :
    SameNextWithMore more (step s) (step (s.withMore more)) := by
  intro t ht
  have hfetch := fetch_sameWithMore more s
  obtain ⟨hr, ⟨w, u, hf, hx⟩ | hf⟩ := step_eq_next ht <;> rw [hf] at hfetch
  · rw [step_of_fetch_ok (s := s.withMore more) hr hfetch]
    exact exec_sameNextWithMore more _ u t hx
  · exact step_of_fetch_stop (s := s.withMore more) hr hfetch

/-- Settles O16: every operation, and so the step, does the same with more answers waiting behind. -/
theorem untakenAnswersDoNotChangeAStep : Obligations.UntakenAnswersDoNotChangeAStep :=
  fun s t more ht => step_sameNextWithMore more s t ht

end Sys2Proof.Machine
end

section
/-! PROOFS. The ports: a step takes answers from the front of the input, counts the bytes among them and appends to the
output (rules R8, R9, R216); where it has no next state, the block is STOPPED or the host's answers hold no `End` (rules R51,
R202, R215). -/

namespace Sys2Proof.Machine

/-- From `s` to `t` the answers `taken` have left the front of the input, the bytes among them have been counted, the output
has grown at its end, and the parameters have stayed. -/
structure Took (taken : List ConsoleAnswer) (s t : State) : Prop where
  input : s.input = taken ++ t.input
  consumed : t.consumed = s.consumed + byteCount taken
  output : ∃ written, t.output = s.output ++ written
  params : t.params = s.params

/-- How a flow from `s` uses the ports: it goes on having taken no `End`; it stops; or it holds on an input that has no
`End`. -/
def Flow.UsesPorts {α : Type} (s : State) : Flow α → Prop
  | .ok _ t => ∃ taken, Took taken s t ∧ .eof ∉ taken
  | .stop t => ∃ taken, Took taken s t
  | .stuck f => f = .awaitingInput ∧ .eof ∉ s.input

/-- How an instruction from `s` uses the ports: it has a next state, or holds on an input that has no `End`. -/
def OutcomeUsesPorts (s : State) : Host.Outcome State Fault Refusal → Prop
  | .next t => ∃ taken, Took taken s t
  | .fault f => f = .awaitingInput ∧ .eof ∉ s.input
  | .refused _ => False

/-! ### Sequencing -/

/-- What touches neither port and no parameter takes no answer. -/
theorem Took.of_eq {s t : State} (hi : t.input = s.input) (hc : t.consumed = s.consumed) (ho : t.output = s.output)
    (hp : t.params = s.params) : Took [] s t :=
  ⟨hi.symm, hc, ⟨[], by rw [ho, List.append_nil]⟩, hp⟩

theorem Took.trans {x y : List ConsoleAnswer} {s t u : State} (h : Took x s t) (h' : Took y t u) : Took (x ++ y) s u := by
  obtain ⟨es, he⟩ := h.output
  obtain ⟨es', he'⟩ := h'.output
  exact ⟨by rw [h.input, h'.input, List.append_assoc],
    by rw [h'.consumed, h.consumed, byteCount_append, Nat.add_assoc],
    ⟨es ++ es', by rw [he', he, List.append_assoc]⟩, h'.params.trans h.params⟩

/-- No `End` is in the input before where none has been taken and none is left. -/
theorem Took.eof_not_mem {x : List ConsoleAnswer} {s t : State} (h : Took x s t) (hx : .eof ∉ x) (ht : .eof ∉ t.input) :
    .eof ∉ s.input := by
  rw [h.input, List.mem_append]
  exact fun hm => hm.elim hx ht

/-- A flow that starts where another has gone on to uses the ports after it. -/
theorem Flow.UsesPorts.after {α : Type} {taken : List ConsoleAnswer} {s t : State} {x : Flow α} (hx : x.UsesPorts t)
    (h : Took taken s t) (hn : .eof ∉ taken) : x.UsesPorts s := by
  cases x with
  | ok a u =>
    obtain ⟨taken', h', hn'⟩ := hx
    exact ⟨taken ++ taken', h.trans h', by simp [hn, hn']⟩
  | stop u =>
    obtain ⟨taken', h'⟩ := hx
    exact ⟨taken ++ taken', h.trans h'⟩
  | stuck f => exact ⟨hx.1, h.eof_not_mem hn hx.2⟩

theorem OutcomeUsesPorts.after {taken : List ConsoleAnswer} {s t : State} {o : Host.Outcome State Fault Refusal}
    (ho : OutcomeUsesPorts t o) (h : Took taken s t) (hn : .eof ∉ taken) : OutcomeUsesPorts s o := by
  cases o with
  | next u =>
    obtain ⟨taken', h'⟩ := ho
    exact ⟨taken ++ taken', h.trans h'⟩
  | fault f => exact ⟨ho.1, h.eof_not_mem hn ho.2⟩
  | refused r => exact ho

theorem Flow.UsesPorts.andThen {α β : Type} {s : State} {x : Flow α} {k : α → State → Flow β} (hx : x.UsesPorts s)
    (hk : ∀ a t, x = .ok a t → (k a t).UsesPorts t) : (x.andThen k).UsesPorts s := by
  cases x with
  | ok a t =>
    obtain ⟨taken, h, hn⟩ := hx
    exact (hk a t rfl).after h hn
  | stop t => exact hx
  | stuck f => exact hx

theorem Flow.UsesPorts.finish {α : Type} {s : State} {x : Flow α} {k : α → State → State} (hx : x.UsesPorts s)
    (hk : ∀ a t, Took [] t (k a t)) : OutcomeUsesPorts s (x.finish k) := by
  cases x with
  | ok a t =>
    obtain ⟨taken, h, -⟩ := hx
    exact ⟨taken ++ [], h.trans (hk a t)⟩
  | stop t => exact hx
  | stuck f => exact hx

/-- A flow that goes on with the ports as they are. -/
theorem Flow.UsesPorts.ok {α : Type} (a : α) {s t : State} (h : Took [] s t) : (Flow.ok a t).UsesPorts s :=
  ⟨[], h, by simp⟩

/-- An instruction that leaves the ports as they are. -/
theorem OutcomeUsesPorts.of_eq {s t : State} (hi : t.input = s.input) (hc : t.consumed = s.consumed)
    (ho : t.output = s.output) (hp : t.params = s.params) : OutcomeUsesPorts s (.next t) :=
  ⟨[], .of_eq hi hc ho hp⟩

/-! ### Output requests -/

theorem Written.Frame.took {s t : State} (h : Written.Frame s t) : Took [] s t :=
  ⟨h.input.symm, h.consumed, h.output, h.params⟩

theorem Written.Framed.flow_usesPorts {s : State} {x : Written} (h : x.Framed s) : x.flow.UsesPorts s := by
  cases x with
  | done t => exact .ok () h.1.took
  | failed t => exact ⟨[], h.1.took⟩

/-- A routine that only outputs and then does `k`. -/
theorem OutcomeUsesPorts.written {s : State} {x : Written} {k : State → State} (h : x.Framed s)
    (hk : ∀ t, Took [] t (k t)) : OutcomeUsesPorts s (.next (x.state k)) := by
  cases x with
  | done t => exact ⟨[] ++ [], h.1.took.trans (hk t)⟩
  | failed t => exact ⟨[], h.1.took⟩

/-! ### The console input, MemRead and the fetch -/

theorem consoleIn_usesPorts (s : State) : (consoleIn s).UsesPorts s := by
  rcases h : s.input with _ | ⟨⟨b⟩ | _, rest⟩
  · rw [consoleIn_nil h]; exact ⟨rfl, by simp [h]⟩
  · rw [consoleIn_byte h]; exact ⟨[.byte b], ⟨h, rfl, ⟨[], by simp⟩, rfl⟩, by simp⟩
  · rw [consoleIn_eof h]; exact ⟨[.eof], ⟨h, rfl, ⟨[], by simp⟩, rfl⟩⟩

theorem memRead_usesPorts (a : Word) (s : State) : (memRead a s).UsesPorts s := by
  by_cases ha : a = kbsrAddr
  · subst ha
    rw [memRead_kbsr]
    exact (consoleIn_usesPorts s).andThen fun b t _ => .ok _ (.of_eq (by simp) (by simp) (by simp) (by simp))
  · rw [memRead_plain ha]
    exact .ok _ (.of_eq rfl rfl rfl rfl)

theorem fetch_usesPorts (s : State) : (fetch s).UsesPorts s :=
  (memRead_usesPorts s.pc s).andThen fun _ _ _ => .ok _ (.of_eq rfl rfl rfl rfl)

/-! ### The walk of PUTS and PUTSP -/

section
variable {put : Word → State → Written} (hput : ∀ w s, (put w s).Framed s)
include hput

theorem walk_usesPorts {fuel : Nat} {a : Word} {s : State} (h : walk put fuel a s ≠ .stuck .outOfFuel) :
    (walk put fuel a s).UsesPorts s := by
  induction fuel generalizing a s with
  | zero => exact absurd rfl h
  | succ fuel ih =>
    rw [walk_succ] at h ⊢
    refine (memRead_usesPorts a s).andThen fun w t hm => ?_
    rw [hm, Flow.andThen_ok] at h
    by_cases hw : w = 0x0000#16
    · rw [if_pos hw]
      exact .ok _ (.of_eq rfl rfl rfl rfl)
    · rw [if_neg hw] at h ⊢
      exact (hput w t).flow_usesPorts.andThen fun _ u hp => ih (by rwa [hp] at h)

/-- No walk of PUTS or PUTSP runs out of its fuel (rule R176). -/
theorem walk_walkFuel_ne_outOfFuel (a : Word) (s : State) : walk put (walkFuel s) a s ≠ .stuck .outOfFuel :=
  fun h => nomatch walk_stuck hput (walkFuel_enough a s) h

theorem putString_usesPorts (s : State) : OutcomeUsesPorts s (putString put s) := by
  refine Flow.UsesPorts.finish ?_ fun _ t => .of_eq rfl rfl rfl rfl
  exact (walk_usesPorts hput (walk_walkFuel_ne_outOfFuel hput _ s)).andThen
    fun _ t _ => (emit_framed .flush t).flow_usesPorts

end

/-! ### The routines of TRAP -/

theorem getcRoutine_usesPorts (s : State) : OutcomeUsesPorts s (getcRoutine s) :=
  (consoleIn_usesPorts s).finish fun _ _ => .of_eq rfl rfl rfl rfl

theorem outRoutine_usesPorts (s : State) : OutcomeUsesPorts s (outRoutine s) :=
  .written ((emit_framed _ s).andThen (emit_framed .flush)) fun _ => .of_eq rfl rfl rfl rfl

theorem haltRoutine_usesPorts (s : State) : OutcomeUsesPorts s (haltRoutine s) :=
  .written ((consoleOutAll_framed _ s).andThen (emit_framed .flush)) fun _ => .of_eq rfl rfl rfl rfl

theorem inRoutine_usesPorts (s : State) : OutcomeUsesPorts s (inRoutine s) := by
  refine Flow.UsesPorts.finish ?_ fun _ _ => .of_eq rfl rfl rfl rfl
  refine (consoleOutAll_framed _ s).flow_usesPorts.andThen fun _ s1 _ => ?_
  refine (consoleIn_usesPorts s1).andThen fun b s2 _ => ?_
  refine (emit_framed _ s2).flow_usesPorts.andThen fun _ s3 _ => ?_
  exact (emit_framed .flush (s3.writeResult .r0 (zext b))).flow_usesPorts.after (.of_eq rfl rfl rfl rfl) (by simp)

theorem execTrap_usesPorts (v : BitVec 8) (s : State) : OutcomeUsesPorts s (execTrap v s) := by
  rcases execTrap_cases v with h | h | h | h | h | h | h <;> rw [h]
  · exact getcRoutine_usesPorts s
  · exact outRoutine_usesPorts s
  · exact putString_usesPorts putsWord_framed s
  · exact inRoutine_usesPorts s
  · exact putString_usesPorts putspWord_framed s
  · exact haltRoutine_usesPorts s
  · exact .of_eq rfl rfl rfl rfl

/-! ### Every instruction, and the step -/

theorem execBr_usesPorts (nzp : BitVec 3) (off : BitVec 9) (s : State) : OutcomeUsesPorts s (execBr nzp off s) := by
  unfold execBr
  split <;> exact .of_eq rfl rfl rfl rfl

theorem exec_usesPorts (i : Instr) (s : State) : OutcomeUsesPorts s (exec i s) := by
  cases i with
  | addReg | addImm | andReg | andImm | not | lea | st | str | jsr | jsrr | jmp | ret | rti | res =>
    exact .of_eq rfl rfl rfl rfl
  | br nzp off => exact execBr_usesPorts nzp off s
  | ld | ldr | sti => exact (memRead_usesPorts _ s).finish fun _ _ => .of_eq rfl rfl rfl rfl
  | ldi =>
    exact ((memRead_usesPorts _ s).andThen fun a t _ => memRead_usesPorts a t).finish fun _ _ => .of_eq rfl rfl rfl rfl
  | trap v => exact execTrap_usesPorts v s
  | getc => exact getcRoutine_usesPorts s
  | out => exact outRoutine_usesPorts s
  | puts => exact putString_usesPorts putsWord_framed s
  | inp => exact inRoutine_usesPorts s
  | putsp => exact putString_usesPorts putspWord_framed s
  | halt => exact haltRoutine_usesPorts s

/-- The step of a RUNNING block has a next state, or holds on an input that has no `End` (rules R41, R51, R215). -/
theorem step_usesPorts {s : State} (hr : s.run = .running) : OutcomeUsesPorts s (step s) := by
  have hfetch := fetch_usesPorts s
  cases hf : fetch s with
  | stop t =>
    rw [hf] at hfetch
    rw [step_of_fetch_stop hr hf]
    exact hfetch
  | stuck f =>
    rw [hf] at hfetch
    rw [step_of_fetch_stuck hr hf]
    exact hfetch
  | ok w u =>
    rw [hf] at hfetch
    rw [step_of_fetch_ok hr hf]
    obtain ⟨taken, h, hn⟩ := hfetch
    exact (exec_usesPorts (decodeWord w) u).after h hn

/-- Settles O15: a held step would have no `End` among its answers, and one stands at the end of them. -/
theorem hostAnswerLiftsTheHold : Obligations.HostAnswerLiftsTheHold := by
  intro s hr
  have h := step_usesPorts (s := { s with input := s.input ++ [.eof] }) hr
  unfold State.Completes
  cases hs : step { s with input := s.input ++ [.eof] } with
  | next t => exact ⟨t, rfl⟩
  | fault f =>
    rw [hs] at h
    exact absurd (List.mem_append_right s.input (List.mem_singleton_self _)) h.2
  | refused r =>
    rw [hs] at h
    exact h.elim

/-- Settles O19: the answers taken by the fetch and by the instruction, and what they wrote. -/
theorem stepUsesThePortsInOrder : Obligations.StepUsesThePortsInOrder := by
  intro s t ht
  have h := step_usesPorts (step_eq_next ht).1
  rw [ht] at h
  obtain ⟨taken, hin, hcount, ⟨written, hout⟩, hparams⟩ := h
  exact ⟨taken, written, hin, hcount, hout, hparams⟩

end Sys2Proof.Machine
end

section
/-! PROOFS. The single effects on the state that a meaning is made of: every instruction, and the fetch, is a sequence of
the effects it is allowed (rules R21, R23, R26, R31, R44, R50, R172, R201). A statement about who writes what is then one
case analysis over the effects. -/

namespace Sys2Proof

/-- The stop an instruction raises by what it is, beside the I/O failures of the ports it uses (rule R201). -/
def Instr.raises : Instr → Option Machine.StopCause
  | .halt => some .halt
  | .trap v =>
    if v = Machine.vectHalt then some .halt
    else if Machine.knownVector v then none
    else some (.unknownTrap v)
  | .rti => some (.reservedOpcode Machine.opcodeRti)
  | .res => some (.reservedOpcode Machine.opcodeRes)
  | _ => none

end Sys2Proof

namespace Sys2Proof.Machine

/-- What a single effect acts on. -/
inductive Action where
  | reg (r : Reg)
  | cond
  | pc
  | store
  | poll
  | take
  | output
  | stop (c : StopCause)

/-- One effect of an action on the state. -/
inductive Effect : Action → State → State → Prop where
  | setReg (r : Reg) (v : Word) (s : State) : Effect (.reg r) s (s.setReg r v)
  | setcc (v : Word) (s : State) : Effect .cond s (s.setcc v)
  | setPc (a : Word) (s : State) : Effect .pc s (s.setPc a)
  | memWrite (a v : Word) (s : State) : Effect .store s (s.memWrite a v)
  | pollByte (b : Byte) (rest : List ConsoleAnswer) (s : State) (h : s.input = .byte b :: rest) :
      Effect .poll s (State.pollByte { s with input := rest, consumed := s.consumed + 1 } b)
  | pollEnd (rest : List ConsoleAnswer) (s : State) (h : s.input = .eof :: rest) :
      Effect .poll s ({ s with input := rest }.raiseStop (.ioFailure .inputEnd))
  | takeByte (b : Byte) (rest : List ConsoleAnswer) (s : State) (h : s.input = .byte b :: rest) :
      Effect .take s { s with input := rest, consumed := s.consumed + 1 }
  | takeEnd (rest : List ConsoleAnswer) (s : State) (h : s.input = .eof :: rest) :
      Effect .take s ({ s with input := rest }.raiseStop (.ioFailure .inputEnd))
  | accepted (e : ConsoleEvent) (budget : Option Nat) (s : State) :
      Effect .output s { s with output := s.output ++ [e], outputBudget := budget }
  | outputFail (s : State) : Effect .output s (s.raiseStop (.ioFailure .outputFail))
  | raiseStop (c : StopCause) (s : State) : Effect (.stop c) s (s.raiseStop c)

/-- A sequence of effects of the actions `P` leads from `s` to `t`. -/
def Does (P : Action → Prop) : State → State → Prop := Relation.ReflTransGen fun s t => ∃ k, P k ∧ Effect k s t

/-- A flow from `s` that goes on or stops has had effects of the actions `P` only. -/
def Flow.Does {α : Type} (P : Action → Prop) (s : State) : Flow α → Prop
  | .ok _ t => Machine.Does P s t
  | .stop t => Machine.Does P s t
  | .stuck _ => True

/-- Output requests from `s` that have had effects of the actions `P` only. -/
def Written.Does (P : Action → Prop) (s : State) : Written → Prop
  | .done t => Machine.Does P s t
  | .failed t => Machine.Does P s t

/-- A next state of `s` that effects of the actions `P` have led to. -/
def OutcomeDoes (P : Action → Prop) (s : State) (o : Host.Outcome State Fault Refusal) : Prop :=
  ∀ t, o = .next t → Does P s t

/-- The actions that an instruction may do. -/
def allowed (i : Instr) : Action → Prop
  | .reg r => i.dest = some r
  | .cond => i.writesCond = true
  | .pc => i.movesPc = true
  | .store => i.storesMemory = true
  | .poll => i.readsMemory = true
  | .take => i.readsConsole = true
  | .output => i.writesConsole = true
  | .stop c => i.raises = some c

/-- The actions of the fetch: the poll of its read, and the increment of pc (rule R80). -/
def fetchAllowed : Action → Prop
  | .poll | .pc => True
  | .reg _ | .cond | .store | .take | .output | .stop _ => False

/-! ### Sequencing -/

section
variable {P : Action → Prop}

theorem Does.refl (s : State) : Does P s s := Relation.ReflTransGen.refl

theorem Does.trans {s t u : State} (h : Does P s t) (h' : Does P t u) : Does P s u := Relation.ReflTransGen.trans h h'

theorem Does.effect {k : Action} {s t : State} (hk : P k) (h : Effect k s t) : Does P s t :=
  Relation.ReflTransGen.single ⟨k, hk, h⟩

/-- A reflexive and transitive relation that every allowed effect meets is met by their sequences. -/
theorem Does.lift {R : State → State → Prop} (hrefl : ∀ s, R s s) (htrans : ∀ s t u, R s t → R t u → R s u)
    (heffect : ∀ k s t, P k → Effect k s t → R s t) {s t : State} (h : Does P s t) : R s t := by
  induction h with
  | refl => exact hrefl s
  | tail _ hlast ih =>
    obtain ⟨k, hk, he⟩ := hlast
    exact htrans _ _ _ ih (heffect k _ _ hk he)

/-- What no allowed effect changes, their sequences leave alone. -/
theorem Does.unchanged {α : Type} {f : State → α} (heffect : ∀ k s t, P k → Effect k s t → f t = f s) {s t : State}
    (h : Does P s t) : f t = f s :=
  h.lift (R := fun s t => f t = f s) (fun _ => rfl) (fun _ _ _ h h' => h'.trans h) heffect

/-- What only effects of `k₀` change is left alone where `k₀` is not allowed. -/
theorem Does.unchanged_of_not {α : Type} {f : State → α} {k₀ : Action}
    (heffect : ∀ {k s t}, Effect k s t → k ≠ k₀ → f t = f s) (hP : ¬ P k₀) {s t : State} (h : Does P s t) :
    f t = f s :=
  h.unchanged fun _ _ _ hk he => heffect he fun hkk => hP (hkk ▸ hk)

theorem Flow.Does.after {α : Type} {s t : State} {x : Flow α} (hx : x.Does P t) (h : Machine.Does P s t) :
    x.Does P s := by
  cases x with
  | ok a u => exact h.trans hx
  | stop u => exact h.trans hx
  | stuck f => trivial

theorem Flow.Does.andThen {α β : Type} {s : State} {x : Flow α} {k : α → State → Flow β} (hx : x.Does P s)
    (hk : ∀ a t, (k a t).Does P t) : (x.andThen k).Does P s := by
  cases x with
  | ok a t => exact (hk a t).after hx
  | stop t => exact hx
  | stuck f => trivial

theorem Flow.Does.finish {α : Type} {s : State} {x : Flow α} {k : α → State → State} (hx : x.Does P s)
    (hk : ∀ a t, Machine.Does P t (k a t)) : OutcomeDoes P s (x.finish k) := by
  intro u hu
  obtain ⟨a, t, rfl, rfl⟩ | rfl := Flow.finish_eq_next hu
  · exact Does.trans hx (hk a t)
  · exact hx

theorem Written.Does.andThen {s : State} {x : Written} {k : State → Written} (hx : x.Does P s)
    (hk : ∀ t, (k t).Does P t) : (x.andThen k).Does P s := by
  cases x with
  | failed t => exact hx
  | done t =>
    have hkt := hk t
    rw [Written.andThen_done]
    cases h : k t with
    | done u => rw [h] at hkt; exact Machine.Does.trans hx hkt
    | failed u => rw [h] at hkt; exact Machine.Does.trans hx hkt

theorem Written.Does.flow {s : State} {x : Written} (hx : x.Does P s) : x.flow.Does P s := by
  cases x <;> exact hx

theorem OutcomeDoes.next {s t : State} (h : Does P s t) : OutcomeDoes P s (.next t) := by
  rintro _ ⟨⟩
  exact h

/-- A routine that only outputs and then does `k`. -/
theorem OutcomeDoes.written {s : State} {x : Written} {k : State → State} (hx : x.Does P s)
    (hk : ∀ t, Does P t (k t)) : OutcomeDoes P s (.next (x.state k)) := by
  cases x with
  | done t => exact .next (Does.trans hx (hk t))
  | failed t => exact .next hx

/-! ### The shared operations -/

theorem writeResult_does {dr : Reg} (hreg : P (.reg dr)) (hcond : P .cond) (v : Word) (s : State) :
    Does P s (s.writeResult dr v) :=
  (Does.effect hreg (.setReg dr v s)).trans (.effect hcond (.setcc v _))

theorem emit_does (ho : P .output) (e : ConsoleEvent) (s : State) : (emit e s).Does P s := by
  obtain ⟨budget, h⟩ | ⟨-, h⟩ := emit_cases e s <;> rw [h]
  · exact Does.effect ho (.accepted e budget s)
  · exact Does.effect ho (.outputFail s)

theorem consoleOutAll_does (ho : P .output) (bs : List Byte) (s : State) : (consoleOutAll bs s).Does P s := by
  induction bs generalizing s with
  | nil => exact Does.refl s
  | cons b bs ih => exact (emit_does ho (.byte b) s).andThen ih

theorem consoleIn_does (ht : P .take) (s : State) : (consoleIn s).Does P s := by
  rcases h : s.input with _ | ⟨⟨b⟩ | _, rest⟩
  · rw [consoleIn_nil h]; trivial
  · rw [consoleIn_byte h]; exact Does.effect ht (.takeByte b rest s h)
  · rw [consoleIn_eof h]; exact Does.effect ht (.takeEnd rest s h)

theorem memRead_does (hp : P .poll) (a : Word) (s : State) : (memRead a s).Does P s := by
  cases h : memRead a s with
  | ok w t =>
    obtain ⟨-, -, rfl⟩ | ⟨-, b, rest, hi, rfl, -⟩ := memRead_eq_ok h
    · exact Does.refl _
    · exact Does.effect hp (.pollByte b rest s hi)
  | stop t =>
    obtain ⟨-, rest, hi, rfl⟩ := memRead_eq_stop h
    exact Does.effect hp (.pollEnd rest s hi)
  | stuck f => trivial

theorem putsWord_does (ho : P .output) (w : Word) (s : State) : (putsWord w s).Does P s := emit_does ho _ s

theorem putspWord_does (ho : P .output) (w : Word) (s : State) : (putspWord w s).Does P s := by
  refine (emit_does ho _ s).andThen fun t => ?_
  split
  · exact Does.refl t
  · exact emit_does ho _ t

/-! ### The routines of TRAP -/

theorem getcRoutine_does (ht : P .take) (hreg : P (.reg .r0)) (s : State) : OutcomeDoes P s (getcRoutine s) :=
  (consoleIn_does ht s).finish fun b t => .effect hreg (.setReg .r0 (zext b) t)

theorem outRoutine_does (ho : P .output) (s : State) : OutcomeDoes P s (outRoutine s) :=
  .written ((emit_does ho _ s).andThen (emit_does ho .flush)) Does.refl

theorem walk_does (hp : P .poll) {put : Word → State → Written} (hput : ∀ w s, (put w s).Does P s) (fuel : Nat)
    (a : Word) (s : State) : (walk put fuel a s).Does P s := by
  induction fuel generalizing a s with
  | zero => trivial
  | succ fuel ih =>
    rw [walk_succ]
    refine (memRead_does hp a s).andThen fun w t => ?_
    split
    · exact Does.refl t
    · exact (hput w t).flow.andThen fun _ u => ih _ u

theorem putString_does (hp : P .poll) (ho : P .output) {put : Word → State → Written}
    (hput : ∀ w s, (put w s).Does P s) (s : State) : OutcomeDoes P s (putString put s) :=
  ((walk_does hp hput _ _ s).andThen fun _ t => (emit_does ho .flush t).flow).finish fun _ => Does.refl

theorem putsRoutine_does (hp : P .poll) (ho : P .output) (s : State) : OutcomeDoes P s (putsRoutine s) :=
  putString_does hp ho (putsWord_does ho) s

theorem putspRoutine_does (hp : P .poll) (ho : P .output) (s : State) : OutcomeDoes P s (putspRoutine s) :=
  putString_does hp ho (putspWord_does ho) s

theorem inRoutine_does (ho : P .output) (ht : P .take) (hreg : P (.reg .r0)) (hcond : P .cond) (s : State) :
    OutcomeDoes P s (inRoutine s) := by
  refine Flow.Does.finish ?_ fun _ => Does.refl
  refine (consoleOutAll_does ho _ s).flow.andThen fun _ s1 => ?_
  refine (consoleIn_does ht s1).andThen fun b s2 => ?_
  refine (emit_does ho _ s2).flow.andThen fun _ s3 => ?_
  exact (emit_does ho .flush _).flow.after (writeResult_does hreg hcond (zext b) s3)

theorem haltRoutine_does (ho : P .output) (hs : P (.stop .halt)) (s : State) : OutcomeDoes P s (haltRoutine s) :=
  .written ((consoleOutAll_does ho _ s).andThen (emit_does ho .flush)) fun t => .effect hs (.raiseStop .halt t)

end

/-! ### The fetch, and every instruction -/

theorem fetch_does (s : State) : (fetch s).Does fetchAllowed s :=
  (memRead_does trivial s.pc s).andThen fun _ t => Does.effect (k := .pc) trivial (.setPc _ t)

theorem execBr_does (nzp : BitVec 3) (off : BitVec 9) (s : State) :
    OutcomeDoes (allowed (.br nzp off)) s (execBr nzp off s) := by
  refine .next ?_
  split
  · exact .effect (k := .pc) rfl (.setPc _ s)
  · exact .refl s

/-- JSR and JSRR: the link, then the transfer. -/
theorem link_setPc_does {i : Instr} (hreg : i.dest = some .r7) (hpc : i.movesPc = true) (a : Word) (s : State) :
    Does (allowed i) s (s.link.setPc a) :=
  (Does.effect (k := .reg .r7) hreg (.setReg .r7 s.pc s)).trans (.effect (k := .pc) hpc (.setPc a _))

theorem raises_unknown {v : BitVec 8} (h : knownVector v = false) : (Instr.trap v).raises = some (.unknownTrap v) := by
  have hne : v ≠ vectHalt := by rintro rfl; exact absurd h (by decide)
  simp [Instr.raises, h, hne]

theorem execTrap_does (v : BitVec 8) (s : State) : OutcomeDoes (allowed (.trap v)) s (execTrap v s) := by
  unfold execTrap
  split_ifs with hgetc hout hputs hin hputsp hhalt
  · subst hgetc; exact getcRoutine_does (by rfl) (by rfl) s
  · subst hout; exact outRoutine_does (by rfl) s
  · subst hputs; exact putsRoutine_does (by rfl) (by rfl) s
  · subst hin; exact inRoutine_does (by rfl) (by rfl) (by rfl) (by rfl) s
  · subst hputsp; exact putspRoutine_does (by rfl) (by rfl) s
  · subst hhalt; exact haltRoutine_does (by rfl) (by rfl) s
  · have hv : knownVector v = false := by simp [knownVector, hgetc, hout, hputs, hin, hputsp, hhalt]
    exact .next (.effect (k := .stop (.unknownTrap v)) (raises_unknown hv) (.raiseStop _ s))

/-- An instruction's effects are those it is allowed. -/
theorem exec_does (i : Instr) (s : State) : OutcomeDoes (allowed i) s (exec i s) := by
  cases i with
  | addReg | addImm | andReg | andImm | not | lea => exact .next (writeResult_does (by rfl) (by rfl) _ s)
  | st | str => exact .next (.effect (k := .store) rfl (.memWrite _ _ s))
  | jsr | jsrr => exact .next (link_setPc_does rfl rfl _ s)
  | jmp | ret => exact .next (.effect (k := .pc) rfl (.setPc _ s))
  | rti | res => exact .next (.effect (k := .stop _) rfl (.raiseStop _ s))
  | br nzp off => exact execBr_does nzp off s
  | ld | ldr => exact (memRead_does (by rfl) _ s).finish (writeResult_does (by rfl) (by rfl))
  | ldi =>
    exact ((memRead_does (by rfl) _ s).andThen (memRead_does (by rfl))).finish (writeResult_does (by rfl) (by rfl))
  | sti => exact (memRead_does (by rfl) _ s).finish fun _ t => .effect (k := .store) rfl (.memWrite _ _ t)
  | trap v => exact execTrap_does v s
  | getc => exact getcRoutine_does (by rfl) (by rfl) s
  | out => exact outRoutine_does (by rfl) s
  | puts => exact putsRoutine_does (by rfl) (by rfl) s
  | inp => exact inRoutine_does (by rfl) (by rfl) (by rfl) (by rfl) s
  | putsp => exact putspRoutine_does (by rfl) (by rfl) s
  | halt => exact haltRoutine_does (by rfl) (by rfl) s

end Sys2Proof.Machine
end

section
/-! PROOFS. Who writes registers, cond, pc and memory, and that every step keeps the invariant: each by the effects that
change the piece of state (rules R21, R23, R26, R31, R201, R203). -/

namespace Sys2Proof.Machine

/-! ### What each effect leaves unchanged -/

theorem Effect.reg_unchanged {k : Action} {s t : State} {r : Reg} (h : Effect k s t) (hk : k ≠ .reg r) :
    t.reg r = s.reg r := by
  cases h with
  | setReg r' v => exact State.reg_setReg_ne s v fun hr => hk (hr ▸ rfl)
  | pollByte b rest => exact State.reg_pollByte _ b r
  | setcc | setPc | memWrite | pollEnd | takeByte | takeEnd | accepted | outputFail | raiseStop => rfl

theorem Effect.cond_unchanged {k : Action} {s t : State} (h : Effect k s t) (hk : k ≠ .cond) : t.cond = s.cond := by
  cases h with
  | setcc => exact absurd rfl hk
  | pollByte b rest => exact State.pollByte_cond _ b
  | setReg | setPc | memWrite | pollEnd | takeByte | takeEnd | accepted | outputFail | raiseStop => rfl

theorem Effect.pc_unchanged {k : Action} {s t : State} (h : Effect k s t) (hk : k ≠ .pc) : t.pc = s.pc := by
  cases h with
  | setPc => exact absurd rfl hk
  | pollByte b rest => exact State.pollByte_pc _ b
  | setReg | setcc | memWrite | pollEnd | takeByte | takeEnd | accepted | outputFail | raiseStop => rfl

theorem Effect.mem_unchanged {k : Action} {s t : State} (h : Effect k s t) (hstore : k ≠ .store) (hpoll : k ≠ .poll) :
    t.mem = s.mem := by
  cases h with
  | memWrite => exact absurd rfl hstore
  | pollByte => exact absurd rfl hpoll
  | setReg | setcc | setPc | pollEnd | takeByte | takeEnd | accepted | outputFail | raiseStop => rfl

/-- An effect that is no store changes no word but KBSR and KBDR. -/
theorem Effect.read_unchanged {k : Action} {s t : State} {a : Word} (h : Effect k s t) (hstore : k ≠ .store)
    (hs : a ≠ kbsrAddr) (hd : a ≠ kbdrAddr) : t.mem.read a = s.mem.read a := by
  cases h with
  | memWrite => exact absurd rfl hstore
  | pollByte b rest => exact State.pollByte_read_ne b hs hd
  | setReg | setcc | setPc | pollEnd | takeByte | takeEnd | accepted | outputFail | raiseStop => rfl

/-- An effect that is no store leaves input and memory alone, or takes an answer. -/
theorem Effect.input_mem {k : Action} {s t : State} (h : Effect k s t) (hstore : k ≠ .store) :
    (t.input = s.input ∧ t.mem = s.mem) ∨ t.input.length < s.input.length := by
  cases h with
  | memWrite => exact absurd rfl hstore
  | pollByte b rest _ hi => exact .inr (by simp [hi])
  | pollEnd rest _ hi | takeByte b rest _ hi | takeEnd rest _ hi => exact .inr (by simp [hi])
  | setReg | setcc | setPc | accepted | outputFail | raiseStop => exact .inl ⟨rfl, rfl⟩

/-! ### Registers, cond and pc -/

/-- Settles O23: only a write of `r` changes `r`, and an instruction writes its destination only. -/
theorem registersHaveTheirWriters : Obligations.RegistersHaveTheirWriters := by
  intro i s t r ht hdest
  exact (exec_does i s t ht).unchanged_of_not (f := fun u => u.reg r) Effect.reg_unchanged hdest

/-- Settles O24: only `setcc` changes cond, and it is allowed to the writers of rule R26. -/
theorem condHasItsWriters : Obligations.CondHasItsWriters := by
  intro i s t ht hw
  exact (exec_does i s t ht).unchanged_of_not (f := State.cond) Effect.cond_unchanged (Bool.eq_false_iff.mp hw)

/-- Settles O26: only a write of pc changes pc, and it is allowed to the control transfers. -/
theorem pcHasItsWriters : Obligations.PcHasItsWriters := by
  intro i s t ht hw
  exact (exec_does i s t ht).unchanged_of_not (f := State.pc) Effect.pc_unchanged (Bool.eq_false_iff.mp hw)

/-! ### Memory -/

section
variable {P : Action → Prop} {s t : State} (h : Does P s t) (hstore : ¬ P .store)
include h hstore

theorem Does.read_unchanged {a : Word} (hs : a ≠ kbsrAddr) (hd : a ≠ kbdrAddr) : t.mem.read a = s.mem.read a :=
  h.unchanged_of_not (f := fun u => u.mem.read a) (fun he hk => he.read_unchanged hk hs hd) hstore

theorem Does.mem_unchanged (hpoll : ¬ P .poll) : t.mem = s.mem := by
  refine h.unchanged (f := State.mem) fun k u v hk he => he.mem_unchanged ?_ ?_ <;> rintro rfl
  · exact hstore hk
  · exact hpoll hk

/-- Without a store memory changes only where an answer is taken. -/
theorem Does.mem_unchanged_of_input (hin : t.input = s.input) : t.mem = s.mem := by
  have hor : (t.input = s.input ∧ t.mem = s.mem) ∨ t.input.length < s.input.length := by
    refine h.lift (R := fun s t => (t.input = s.input ∧ t.mem = s.mem) ∨ t.input.length < s.input.length)
      (fun _ => .inl ⟨rfl, rfl⟩) ?_ fun k u v hk he => he.input_mem ?_
    · rintro u v w (⟨hi, hm⟩ | hlt) (⟨hi', hm'⟩ | hlt')
      · exact .inl ⟨hi'.trans hi, hm'.trans hm⟩
      · exact .inr (hi ▸ hlt')
      · exact .inr (hi' ▸ hlt)
      · exact .inr (hlt'.trans hlt)
    · rintro rfl
      exact hstore hk
  obtain ⟨-, hm⟩ | hlt := hor
  · exact hm
  · exact absurd hlt (by simp [hin])

end

/-- Settles O27: without a store only a poll changes memory, at its two words, and a poll takes an answer. -/
theorem memoryHasItsWriters : Obligations.MemoryHasItsWriters := by
  intro i s t ht hw
  have hdoes := exec_does i s t ht
  have hstore : ¬ allowed i .store := Bool.eq_false_iff.mp hw
  refine ⟨fun a hs hd => hdoes.read_unchanged hstore hs hd, fun hr => ?_, hdoes.mem_unchanged_of_input hstore⟩
  exact hdoes.mem_unchanged hstore (Bool.eq_false_iff.mp hr)

/-! ### The invariant -/

theorem State.Inv.raiseStop {s : State} (h : s.Inv) {c : StopCause} (hc : c.legal = true) : (s.raiseStop c).Inv :=
  ⟨h.mem_wf, h.status_ne_zero, by simp [Run.legal, hc]⟩

/-- Input, its count and the output are no part of the invariant. -/
theorem State.Inv.of_eq {s t : State} (h : s.Inv) (hm : t.mem.wf = true) (hp : t.params = s.params)
    (hr : t.run = s.run) : t.Inv :=
  ⟨hm, hp ▸ h.status_ne_zero, by rw [hp, hr]; exact h.run_legal⟩

/-- Every effect keeps the invariant, a stop where its cause is legal. -/
theorem Effect.keeps_inv {k : Action} {s t : State} (h : Effect k s t) (hk : ∀ c, k = .stop c → c.legal = true)
    (hs : s.Inv) : t.Inv := by
  cases h with
  | setReg | setcc | setPc | takeByte | accepted => exact hs.of_eq hs.mem_wf rfl rfl
  | memWrite a v => exact hs.of_eq (Memory.wf_write a v hs.mem_wf) rfl rfl
  | pollByte b rest =>
    exact hs.of_eq (State.pollByte_mem_wf (s := { s with input := rest, consumed := s.consumed + 1 }) b hs.mem_wf)
      (by simp) (by simp)
  | pollEnd rest | takeEnd rest => exact (hs.of_eq (t := { s with input := rest }) hs.mem_wf rfl rfl).raiseStop rfl
  | outputFail => exact hs.raiseStop rfl
  | raiseStop c => exact hs.raiseStop (hk c rfl)

theorem Does.keeps_inv {P : Action → Prop} {s t : State} (h : Does P s t) (hP : ∀ c, P (.stop c) → c.legal = true) :
    s.Inv → t.Inv :=
  h.lift (R := fun s t => s.Inv → t.Inv) (fun _ => id) (fun _ _ _ h h' => h' ∘ h)
    fun _ _ _ hk he => he.keeps_inv fun c hc => hP c (hc ▸ hk)

/-- What an instruction raises is legal: an unknown vector names no routine (rule R201). -/
theorem raises_legal {i : Instr} {c : StopCause} (h : i.raises = some c) : c.legal = true := by
  cases i with
  | halt | rti | res => obtain rfl := Option.some.inj h; rfl
  | trap v =>
    simp only [Instr.raises] at h
    split_ifs at h with hhalt hknown <;> obtain rfl := Option.some.inj h
    · rfl
    · simpa [StopCause.legal] using hknown
  | _ => nomatch h

/-- Settles O17: the fetch and the instruction are effects, and no effect breaks the invariant. -/
theorem stepKeepsTheInvariant : Obligations.StepKeepsTheInvariant := by
  intro s t hs ht
  have hfetch := fetch_does s
  obtain ⟨-, ⟨w, u, hf, hx⟩ | hf⟩ := step_eq_next ht <;> rw [hf] at hfetch
  · have hu : u.Inv := Does.keeps_inv hfetch (fun _ h => h.elim) hs
    exact (exec_does _ u t hx).keeps_inv (fun _ h => raises_legal h) hu
  · exact Does.keeps_inv hfetch (fun _ h => h.elim) hs

end Sys2Proof.Machine
end

section
/-! PROOFS. cond is read by BR only: every other operation, run from a state with another cond, has the same effects, and
leaves either the cond it writes or the one that stood there (rules R25, R26). -/

namespace Sys2Proof.Machine

/-- `s` with another cond. -/
def State.withCond (s : State) (c : Cond) : State := { s with cond := c }

/-- `u` is `t`; or `t` still has the cond `c₀` that stood before, and `u` is `t` with `c` in its place. -/
def SameButCond (c₀ c : Cond) (t u : State) : Prop := u = t ∨ (t.cond = c₀ ∧ u = t.withCond c)

/-- `y` ends as `x` does, but for cond. -/
def Flow.SameButCond {α : Type} (c₀ c : Cond) (x y : Flow α) : Prop :=
  match x with
  | .ok a t => ∃ u, y = .ok a u ∧ Machine.SameButCond c₀ c t u
  | .stop t => ∃ u, y = .stop u ∧ Machine.SameButCond c₀ c t u
  | .stuck f => y = .stuck f

/-- Statements that read no cond. -/
def IgnoresCond {α : Type} (f : State → Flow α) : Prop := ∀ s c, (f s).SameButCond s.cond c (f (s.withCond c))

/-- An instruction that reads no cond. -/
def NextIgnoresCond (e : State → Host.Outcome State Fault Refusal) : Prop :=
  ∀ s c t, e s = .next t → ∃ u, e (s.withCond c) = .next u ∧ SameButCond s.cond c t u

/-! ### Sequencing -/

theorem Flow.SameButCond.refl {α : Type} {c₀ c : Cond} (x : Flow α) : x.SameButCond c₀ c x := by
  cases x with
  | ok a t => exact ⟨t, rfl, .inl rfl⟩
  | stop t => exact ⟨t, rfl, .inl rfl⟩
  | stuck f => rfl

/-- Statements that go on with a value, or stop, in the state with the other cond. -/
theorem Flow.SameButCond.ok {α : Type} (a : α) {s t : State} (c : Cond) (h : t.cond = s.cond) :
    (Flow.ok a t).SameButCond s.cond c (.ok a (t.withCond c)) := ⟨_, rfl, .inr ⟨h, rfl⟩⟩

theorem Flow.SameButCond.stop {α : Type} {s t : State} (c : Cond) (h : t.cond = s.cond) :
    (Flow.stop t : Flow α).SameButCond s.cond c (.stop (t.withCond c)) := ⟨_, rfl, .inr ⟨h, rfl⟩⟩

theorem IgnoresCond.ok {α : Type} (a : α) : IgnoresCond (Flow.ok a) := fun _ c => Flow.SameButCond.ok a c rfl

theorem Flow.SameButCond.andThen {α β : Type} {c₀ c : Cond} {x y : Flow α} {k : α → State → Flow β}
    (hx : x.SameButCond c₀ c y) (hk : ∀ a, IgnoresCond (k a)) : (x.andThen k).SameButCond c₀ c (y.andThen k) := by
  cases x with
  | ok a t =>
    obtain ⟨u, rfl, rfl | ⟨rfl, rfl⟩⟩ := hx
    · exact .refl _
    · exact hk a t c
  | stop t =>
    obtain ⟨u, rfl, hu⟩ := hx
    exact ⟨u, rfl, hu⟩
  | stuck f =>
    obtain rfl := hx
    rfl

theorem Flow.SameButCond.finish {α : Type} {c₀ c : Cond} {x y : Flow α} {k : α → State → State} {t : State}
    (hx : x.SameButCond c₀ c y) (hk : ∀ a s, Machine.SameButCond s.cond c (k a s) (k a (s.withCond c)))
    (ht : x.finish k = .next t) : ∃ u, y.finish k = .next u ∧ Machine.SameButCond c₀ c t u := by
  obtain ⟨a, s, rfl, rfl⟩ | rfl := Flow.finish_eq_next ht
  · obtain ⟨u, rfl, rfl | ⟨rfl, rfl⟩⟩ := hx
    · exact ⟨_, rfl, .inl rfl⟩
    · exact ⟨_, rfl, hk a s⟩
  · obtain ⟨u, rfl, hu⟩ := hx
    exact ⟨u, rfl, hu⟩

theorem NextIgnoresCond.next {g : State → State} (h : ∀ s c, SameButCond s.cond c (g s) (g (s.withCond c))) :
    NextIgnoresCond fun s => .next (g s) := by
  rintro s c _ ⟨⟩
  exact ⟨_, rfl, h s c⟩

/-- A result sets cond itself, so that the cond before it is lost. -/
theorem writeResult_sameButCond (dr : Reg) (v : Word) (s : State) (c : Cond) :
    SameButCond s.cond c (s.writeResult dr v) ((s.withCond c).writeResult dr v) := .inl rfl

/-! ### Output requests, as statements -/

theorem Written.andThen_flow (x : Written) (k : State → Written) :
    (x.andThen k).flow = x.flow.andThen fun _ s => (k s).flow := by
  cases x <;> rfl

theorem Written.next_state (x : Written) (k : State → State) :
    (.next (x.state k) : Host.Outcome State Fault Refusal) = x.flow.finish fun _ s => k s := by
  cases x <;> rfl

theorem emit_ignoresCond (e : ConsoleEvent) : IgnoresCond fun s => (emit e s).flow := by
  intro s c
  have hb : (s.withCond c).outputBudget = s.outputBudget := rfl
  show (emit e s).flow.SameButCond s.cond c (emit e (s.withCond c)).flow
  rcases h : s.outputBudget with _ | _ | k
  · rw [emit_never e h, emit_never e (hb.trans h)]; exact .ok () c rfl
  · rw [emit_fail e h, emit_fail e (hb.trans h)]; exact .stop c rfl
  · rw [emit_budget e h, emit_budget e (hb.trans h)]; exact .ok () c rfl

theorem IgnoresCond.written_andThen {x k : State → Written} (hx : IgnoresCond fun s => (x s).flow)
    (hk : IgnoresCond fun s => (k s).flow) : IgnoresCond fun s => ((x s).andThen k).flow := by
  intro s c
  simp only [Written.andThen_flow]
  exact (hx s c).andThen fun _ => hk

theorem consoleOutAll_ignoresCond (bs : List Byte) : IgnoresCond fun s => (consoleOutAll bs s).flow := by
  induction bs with
  | nil => exact .ok ()
  | cons b bs ih => exact .written_andThen (emit_ignoresCond (.byte b)) ih

theorem putsWord_ignoresCond (w : Word) : IgnoresCond fun s => (putsWord w s).flow := emit_ignoresCond _

theorem putspWord_ignoresCond (w : Word) : IgnoresCond fun s => (putspWord w s).flow := by
  refine .written_andThen (emit_ignoresCond _) ?_
  split
  · exact .ok ()
  · exact emit_ignoresCond _

/-! ### The console input and MemRead -/

theorem consoleIn_ignoresCond : IgnoresCond consoleIn := by
  intro s c
  have hin : (s.withCond c).input = s.input := rfl
  rcases h : s.input with _ | ⟨⟨b⟩ | _, rest⟩
  · rw [consoleIn_nil h, consoleIn_nil (hin.trans h)]; rfl
  · rw [consoleIn_byte h, consoleIn_byte (hin.trans h)]; exact .ok b c rfl
  · rw [consoleIn_eof h, consoleIn_eof (hin.trans h)]; exact .stop c rfl

theorem State.pollByte_withCond (s : State) (b : Byte) (c : Cond) :
    (s.withCond c).pollByte b = (s.pollByte b).withCond c := by
  unfold State.pollByte
  split <;> rfl

theorem memRead_ignoresCond (a : Word) : IgnoresCond (memRead a) := by
  intro s c
  by_cases ha : a = kbsrAddr
  · subst ha
    rw [memRead_kbsr, memRead_kbsr]
    refine (consoleIn_ignoresCond s c).andThen fun b t c => ?_
    rw [State.pollByte_withCond]
    exact .ok _ c (State.pollByte_cond t b)
  · rw [memRead_plain ha, memRead_plain ha]
    exact .ok _ c rfl

/-! ### The routines of TRAP -/

theorem walk_ignoresCond {put : Word → State → Written} (hput : ∀ w, IgnoresCond fun s => (put w s).flow) (fuel : Nat)
    (a : Word) : IgnoresCond (walk put fuel a) := by
  induction fuel generalizing a with
  | zero => exact fun _ _ => rfl
  | succ fuel ih =>
    intro s c
    rw [walk_succ, walk_succ]
    refine (memRead_ignoresCond a s c).andThen fun w => ?_
    split
    · exact .ok ()
    · exact fun t c => (hput w t c).andThen fun _ => ih _

theorem putString_ignoresCond {put : Word → State → Written} (hput : ∀ w, IgnoresCond fun s => (put w s).flow) :
    NextIgnoresCond (putString put) := fun s c _ ht =>
  ((walk_ignoresCond hput (walkFuel s) (s.reg .r0) s c).andThen fun _ => emit_ignoresCond .flush).finish
    (fun _ _ => .inr ⟨rfl, rfl⟩) ht

theorem getcRoutine_ignoresCond : NextIgnoresCond getcRoutine := fun s c _ ht =>
  (consoleIn_ignoresCond s c).finish (fun _ _ => .inr ⟨rfl, rfl⟩) ht

theorem outRoutine_ignoresCond : NextIgnoresCond outRoutine := by
  intro s c t ht
  unfold outRoutine at ht ⊢
  rw [Written.next_state] at ht ⊢
  exact (IgnoresCond.written_andThen (emit_ignoresCond _) (emit_ignoresCond .flush) s c).finish
    (fun _ _ => .inr ⟨rfl, rfl⟩) ht

theorem haltRoutine_ignoresCond : NextIgnoresCond haltRoutine := by
  intro s c t ht
  unfold haltRoutine at ht ⊢
  rw [Written.next_state] at ht ⊢
  exact (IgnoresCond.written_andThen (consoleOutAll_ignoresCond _) (emit_ignoresCond .flush) s c).finish
    (fun _ _ => .inr ⟨rfl, rfl⟩) ht

theorem inRoutine_ignoresCond : NextIgnoresCond inRoutine := by
  intro s c t ht
  refine Flow.SameButCond.finish ?_ (fun _ _ => .inr ⟨rfl, rfl⟩) ht
  refine (consoleOutAll_ignoresCond s.params.inPrompt s c).andThen fun _ s1 c => ?_
  refine (consoleIn_ignoresCond s1 c).andThen fun b s2 c => ?_
  refine (emit_ignoresCond (.byte b) s2 c).andThen fun _ s3 c => ?_
  exact .refl (consoleFlush (s3.writeResult .r0 (zext b))).flow

theorem execTrap_ignoresCond (v : BitVec 8) : NextIgnoresCond (execTrap v) := by
  rcases execTrap_cases v with h | h | h | h | h | h | h <;> rw [h]
  · exact getcRoutine_ignoresCond
  · exact outRoutine_ignoresCond
  · exact putString_ignoresCond putsWord_ignoresCond
  · exact inRoutine_ignoresCond
  · exact putString_ignoresCond putspWord_ignoresCond
  · exact haltRoutine_ignoresCond
  · exact .next fun _ _ => .inr ⟨rfl, rfl⟩

/-! ### Every instruction but BR -/

theorem exec_ignoresCond {i : Instr} (hbr : ∀ nzp off, i ≠ .br nzp off) : NextIgnoresCond (exec i) := by
  cases i with
  | br nzp off => exact absurd rfl (hbr nzp off)
  | addReg dr | addImm dr | andReg dr | andImm dr | not dr | lea dr =>
    exact .next fun s c => writeResult_sameButCond dr _ s c
  | st | str | jsr | jsrr | jmp | ret | rti | res => exact .next fun _ _ => .inr ⟨rfl, rfl⟩
  | ld dr | ldr dr =>
    exact fun s c _ ht => (memRead_ignoresCond _ s c).finish (fun v u => writeResult_sameButCond dr v u c) ht
  | ldi dr =>
    exact fun s c _ ht =>
      ((memRead_ignoresCond _ s c).andThen memRead_ignoresCond).finish (fun v u => writeResult_sameButCond dr v u c) ht
  | sti => exact fun s c _ ht => (memRead_ignoresCond _ s c).finish (fun _ _ => .inr ⟨rfl, rfl⟩) ht
  | trap v => exact execTrap_ignoresCond v
  | getc => exact getcRoutine_ignoresCond
  | out => exact outRoutine_ignoresCond
  | puts => exact putString_ignoresCond putsWord_ignoresCond
  | inp => exact inRoutine_ignoresCond
  | putsp => exact putString_ignoresCond putspWord_ignoresCond
  | halt => exact haltRoutine_ignoresCond

/-- Settles O25: no other instruction reads cond, so what it leaves there is what it writes or what stood there. -/
theorem onlyBranchReadsCond : Obligations.OnlyBranchReadsCond := by
  intro i s t c hbr ht
  obtain ⟨u, hu, rfl | ⟨hcond, rfl⟩⟩ := exec_ignoresCond hbr s c t ht
  · exact ⟨u.cond, hu, .inl rfl⟩
  · exact ⟨c, hu, .inr ⟨hcond, rfl⟩⟩

end Sys2Proof.Machine
end

section
/-! PROOFS. The condition law, and the state after reset (rules R22, R25, R27, R31, R36, R203, R230). -/

namespace Sys2Proof.Machine

/-- Settles O9: the three cases of `condOf`, the sign being bit 15. -/
theorem setccFollowsTheConditionLaw : Obligations.SetccFollowsTheConditionLaw := by
  intro s v
  have hmsb : v.msb = v.getLsbD 15 := BitVec.msb_eq_getLsbD_last v
  refine ⟨fun hz => ⟨?_, rfl⟩, fun _ hneg => ⟨?_, rfl⟩, fun hne hpos => ⟨?_, rfl⟩⟩ <;> unfold State.setcc
  · rw [hz, condOf_zero]
  · rw [condOf_neg (hmsb.trans hneg)]
  · rw [condOf_pos hne (hmsb.trans hpos)]

theorem RegFile.get_zero (r : Reg) : RegFile.zero.get r = 0x0000#16 := by
  cases r <;> rfl

/-- Settles O10: the fields of `State.reset`; its memory lists no word. -/
theorem resetLeavesTheStatedValues : Obligations.ResetLeavesTheStatedValues :=
  ⟨RegFile.get_zero, rfl, rfl, Memory.read_nil, rfl⟩

/-- Settles O18: the empty memory is canonical, and IO_FAIL_STATUS is a successor. -/
theorem resetMeetsTheInvariant : Obligations.ResetMeetsTheInvariant :=
  ⟨Memory.wf_nil, Nat.succ_ne_zero _, rfl⟩

end Sys2Proof.Machine
end

section
/-! PROOFS. The keyboard poll: what a read of KBSR_ADDR does with each answer of the host, and so what the fetch, a load and
a string walk do there (rules R46, R48-R52). -/

namespace Sys2Proof.Machine

/-- `s` after a poll that has taken the byte `b` and left `rest` (rule R46). -/
def State.polled (s : State) (b : Byte) (rest : List ConsoleAnswer) : State :=
  State.pollByte { s with input := rest, consumed := s.consumed + 1 } b

section
variable {s : State} {b : Byte} {rest : List ConsoleAnswer}

theorem memRead_kbsr_byte (h : s.input = .byte b :: rest) :
    memRead kbsrAddr s = .ok ((s.polled b rest).mem.read kbsrAddr) (s.polled b rest) := by
  rw [memRead_kbsr, consoleIn_byte h]
  rfl

theorem memRead_kbsr_eof (h : s.input = .eof :: rest) : memRead kbsrAddr s = .stop (s.inputEnded rest) := by
  rw [memRead_kbsr, consoleIn_eof h]
  rfl

theorem memRead_kbsr_nil (h : s.input = []) : memRead kbsrAddr s = .stuck .awaitingInput := by
  rw [memRead_kbsr, consoleIn_nil h]
  rfl

/-- A poll changes memory, takes its answer and touches nothing else. -/
theorem State.polled_eq (s : State) (b : Byte) (rest : List ConsoleAnswer) :
    s.polled b rest = { s with mem := (s.polled b rest).mem, input := rest, consumed := s.consumed + 1 } := by
  unfold State.polled State.pollByte
  split <;> rfl

@[simp] theorem State.polled_pc : (s.polled b rest).pc = s.pc := by rw [State.polled_eq]
@[simp] theorem State.polled_input : (s.polled b rest).input = rest := by rw [State.polled_eq]
@[simp] theorem State.polled_consumed : (s.polled b rest).consumed = s.consumed + 1 := by rw [State.polled_eq]

theorem State.polled_mem_wf (h : s.mem.wf = true) : (s.polled b rest).mem.wf = true :=
  State.pollByte_mem_wf (s := { s with input := rest, consumed := s.consumed + 1 }) b h

theorem byte_eq_zero_iff (b : Byte) : b = 0x00#8 ↔ b.toNat = 0 := BitVec.toNat_inj.symm

theorem zext_eq_ofNat (b : Byte) : zext b = BitVec.ofNat 16 b.toNat := by
  rw [← zext_toNat, BitVec.ofNat_toNat, BitVec.setWidth_eq]

/-- The memory after a poll is the one that the rules give (rules R46, R48, R49). -/
theorem State.polled_polledBy (h : s.mem.wf = true) : PolledBy b s (s.polled b rest) where
  kbsr := (State.pollByte_read_kbsr (s := { s with input := rest, consumed := s.consumed + 1 }) b h).trans
    (if_congr (byte_eq_zero_iff b) rfl rfl)
  kbdr := (State.pollByte_read_kbdr (s := { s with input := rest, consumed := s.consumed + 1 }) b h).trans
    (if_congr (byte_eq_zero_iff b) rfl (zext_eq_ofNat b))
  others := fun _ hs hd => State.pollByte_read_ne b hs hd

theorem PolledBy.of_mem_eq {s t u : State} (h : PolledBy b s t) (hm : u.mem = t.mem) : PolledBy b s u :=
  ⟨hm ▸ h.kbsr, hm ▸ h.kbdr, hm ▸ h.others⟩

/-- The polled status is ready iff the byte is not zero, in both modes (rule R48). -/
theorem PolledBy.ready_iff {s t : State} (h : PolledBy b s t) :
    (t.mem.read 0xFE00#16).getLsbD 15 = true ↔ b.toNat ≠ 0 := by
  rw [h.kbsr]
  by_cases hb : b.toNat = 0
  · simp [hb]
  · cases hm : s.params.kbsrReadyMode <;> simp [hb]

/-- A zero byte, and no other, makes KBSR zero (rule R46). -/
theorem PolledBy.kbsr_eq_zero_iff {s t : State} (h : PolledBy b s t) :
    t.mem.read 0xFE00#16 = 0x0000#16 ↔ b.toNat = 0 := by
  constructor
  · intro hz
    by_contra hb
    have := h.ready_iff.mpr hb
    simp [hz] at this
  · intro hb
    rw [h.kbsr, if_pos hb]

end

/-! ### The fetch from KBSR_ADDR (rules R50, R80) -/

/-- Settles O12: the fetch is a read of KBSR_ADDR, and pc moves only after a byte. -/
theorem fetchFromKbsrPolls : Obligations.FetchFromKbsrPolls := by
  intro s hinv hr hpc
  have hfetch : fetch s = (memRead kbsrAddr s).andThen fun w u => .ok w (u.setPc (addWrap u.pc 0x0001#16)) := by
    rw [fetch, hpc, kbsrAddr]
  refine ⟨fun b rest hi => ?_, fun rest hi => ?_, fun hi => ?_⟩
  · refine ⟨s.polled b rest, State.polled_polledBy hinv.mem_wf, s.polled_eq b rest, ?_⟩
    rw [memRead_kbsr_byte hi, Flow.andThen_ok] at hfetch
    rw [step_of_fetch_ok hr hfetch, State.polled_pc, hpc]
    rfl
  · rw [memRead_kbsr_eof hi, Flow.andThen_stop] at hfetch
    exact step_of_fetch_stop hr hfetch
  · rw [memRead_kbsr_nil hi, Flow.andThen_stuck] at hfetch
    exact step_of_fetch_stuck hr hfetch

/-! ### Loads (rules R120, R121, R124, R125) -/

/-- `condOf` gives the code of its word (rule R25). -/
theorem condOf_condIs (v : Word) : CondIs (condOf v) v := by
  have hlt := v.isLt
  by_cases hz : v = 0x0000#16
  · subst hz
    exact .inl ⟨rfl, rfl⟩
  · have hpos : v.toNat ≠ 0 := fun h => hz (BitVec.eq_of_toNat_eq h)
    have hmsb := BitVec.msb_eq_decide v
    by_cases hn : 32768 ≤ v.toNat
    · exact .inr (.inl ⟨hn, condOf_neg (by simp [hmsb, hn])⟩)
    · exact .inr (.inr ⟨by omega, by omega, condOf_pos hz (by simp [hmsb, hn])⟩)

/-- The destination holds the result and cond is its code (rule R26). -/
theorem writeResult_condIs (dr : Reg) (v : Word) (s : State) :
    CondIs (s.writeResult dr v).cond ((s.writeResult dr v).reg dr) := by
  rw [State.reg_writeResult_same]
  exact condOf_condIs v

theorem writeResult_resultFrame (dr : Reg) (v : Word) (s : State) : ResultFrame dr s (s.writeResult dr v) :=
  ⟨⟨fun _ hne => State.reg_writeResult_ne s v hne, rfl, rfl, rfl, rfl, rfl⟩, rfl, rfl, rfl⟩

theorem State.polled_coreFrame (dr : Reg) (s : State) (b : Byte) (rest : List ConsoleAnswer) :
    CoreFrame dr s (s.polled b rest) := by
  rw [State.polled_eq]
  exact ⟨fun _ _ => rfl, rfl, rfl, rfl, rfl, rfl⟩

theorem CoreFrame.trans {dr : Reg} {s t u : State} (h : CoreFrame dr s t) (h' : CoreFrame dr t u) : CoreFrame dr s u :=
  ⟨fun r hr => (h'.regs r hr).trans (h.regs r hr), h'.pc.trans h.pc, h'.run.trans h.run, h'.output.trans h.output,
    h'.outputBudget.trans h.outputBudget, h'.params.trans h.params⟩

/-- A load of the word at `ea`: MemRead, then the write of the result. -/
theorem memRead_loadResult (dr : Reg) (ea : Word) {s : State} (h : s.mem.wf = true) :
    LoadResult ((memRead ea s).finish fun v t => t.writeResult dr v) dr ea s where
  plain hne := by
    rw [memRead_plain hne]
    exact ⟨_, rfl, State.reg_writeResult_same s dr _, writeResult_condIs dr _ s, writeResult_resultFrame dr _ s⟩
  polled := by
    rintro rfl b rest hi
    rw [← kbsrAddr, memRead_kbsr_byte hi]
    exact ⟨_, rfl, (State.polled_polledBy h).of_mem_eq rfl, State.reg_writeResult_same _ dr _,
      writeResult_condIs dr _ _, (s.polled_coreFrame dr b rest).trans (writeResult_resultFrame dr _ _).toCoreFrame,
      State.polled_input, State.polled_consumed⟩
  ended := by
    rintro rfl rest hi
    rw [← kbsrAddr, memRead_kbsr_eof hi]
    rfl
  waits := by
    rintro rfl hi
    rw [← kbsrAddr, memRead_kbsr_nil hi]
    rfl

/-- Settles O34: both loads are that of the word at their address. -/
theorem ldAndLdrLoadTheirWord : Obligations.LdAndLdrLoadTheirWord :=
  fun dr _ _ _ _ hinv => ⟨memRead_loadResult dr _ hinv.mem_wf, memRead_loadResult dr _ hinv.mem_wf⟩

/-! ### Two reads in a row (rule R52) -/

/-- Settles O39: the second poll starts from the state that the first one left. -/
theorem consecutivePollsTakeOneByteEach : Obligations.ConsecutivePollsTakeOneByteEach := by
  refine ⟨fun a s hne => memRead_plain hne, fun s b1 b2 rest hinv hi => ?_⟩
  let s1 := s.polled b1 (.byte b2 :: rest)
  have hp1 : PolledBy b1 s s1 := State.polled_polledBy hinv.mem_wf
  have hp2 : PolledBy b2 s1 (s1.polled b2 rest) := State.polled_polledBy (State.polled_mem_wf hinv.mem_wf)
  refine ⟨_, s1, _, s1.polled b2 rest, memRead_kbsr_byte hi, memRead_kbsr_byte State.polled_input, hp1.ready_iff,
    hp2.ready_iff, rfl, ?_, State.polled_input, by rw [State.polled_consumed, State.polled_consumed]⟩
  rw [hp2.kbdr, hp1.kbdr]
  by_cases h2 : b2.toNat = 0
  · by_cases h1 : b1.toNat = 0
    · simp [h1, h2]
    · simp only [h1, h2, if_true, if_false, ne_eq, not_true, not_false_eq_true]
      rw [← zext_eq_ofNat, zext_toNat]
  · simp only [h2, if_true, if_false, ne_eq, not_false_eq_true]
    rw [← zext_eq_ofNat, zext_toNat]

/-! ### A store into the word fetched next (rule R58) -/

/-- A storing instruction writes its word into the state its pointer's read has left, and touches neither pc nor `run`. -/
theorem exec_of_storesTo {i : Instr} {s : State} {a v : Word} (h : StoresTo i s a v) :
    ∃ u : State, exec i s = .next (u.memWrite a v) ∧ u.pc = s.pc ∧ u.run = s.run ∧
      (s.mem.wf = true → u.mem.wf = true) := by
  cases i with
  | st sr off | str sr baseR off =>
    obtain ⟨rfl, rfl⟩ := h
    exact ⟨s, rfl, rfl, rfl, id⟩
  | sti sr off =>
    obtain ⟨⟨u, hu⟩, rfl⟩ := h
    obtain ⟨hregs, hpc, -, hrun, -, -, -, hwf, -⟩ := memRead_ok_frame hu
    refine ⟨u, ?_, hpc, hrun, hwf⟩
    show (memRead (s.pcRel9 off) s).finish _ = _
    rw [hu, Flow.finish_ok, State.reg, State.reg, hregs]
  | _ => exact h.elim

/-- Settles O40: the store is the last effect of its step, and the next fetch, away from KBSR_ADDR, reads what it wrote. -/
theorem storeIsSeenByTheNextFetch : Obligations.StoreIsSeenByTheNextFetch := by
  intro s t u w v hinv hr hne hf hst ht
  obtain ⟨s', hm, rfl⟩ := fetch_eq_ok hf
  obtain ⟨-, hpc, -, hrun, -, -, -, hwf, -⟩ := memRead_ok_frame hm
  obtain ⟨u', hx, hpc', hrun', hwf'⟩ := exec_of_storesTo hst
  obtain rfl : u'.memWrite (s.pc + 1) v = t := by
    rw [step_of_fetch_ok hr hf, hx] at ht
    exact Host.Outcome.next.inj ht
  have htpc : (u'.memWrite (s.pc + 1) v).pc = s.pc + 1 := by
    rw [State.memWrite_pc, hpc', State.setPc_pc, hpc]
    rfl
  have hfetch := fetch_plain (s := u'.memWrite (s.pc + 1) v) (htpc ▸ hne)
  have hread : (u'.memWrite (s.pc + 1) v).mem.read (s.pc + 1) = v :=
    Memory.read_write_same _ v (hwf' (hwf hinv.mem_wf))
  rw [htpc, hread] at hfetch
  have htrun : (u'.memWrite (s.pc + 1) v).run = .running := hrun'.trans (hrun.trans hr)
  refine ⟨htpc, ?_⟩
  rw [step_of_fetch_ok htrun hfetch, addWrap, BitVec.add_assoc]
  rfl

end Sys2Proof.Machine
end

section
/-! PROOFS. Who takes input and who writes output, by the effects of each instruction; and that every state steps, is STOPPED,
or holds on an input that has no `End` (rules R50, R51, R172, R182, R202, R215). -/

namespace Sys2Proof.Machine

/-- Only a poll and a console read take answers. -/
theorem Effect.input_unchanged {k : Action} {s t : State} (h : Effect k s t) (hpoll : k ≠ .poll) (htake : k ≠ .take) :
    t.input = s.input ∧ t.consumed = s.consumed := by
  cases h with
  | pollByte | pollEnd => exact absurd rfl hpoll
  | takeByte | takeEnd => exact absurd rfl htake
  | setReg | setcc | setPc | memWrite | accepted | outputFail | raiseStop => exact ⟨rfl, rfl⟩

/-- Only an output request uses the output port. -/
theorem Effect.output_unchanged {k : Action} {s t : State} (h : Effect k s t) (hout : k ≠ .output) :
    t.output = s.output ∧ t.outputBudget = s.outputBudget := by
  cases h with
  | accepted | outputFail => exact absurd rfl hout
  | pollByte b rest => exact ⟨State.pollByte_output _ b, State.pollByte_outputBudget _ b⟩
  | setReg | setcc | setPc | memWrite | pollEnd | takeByte | takeEnd | raiseStop => exact ⟨rfl, rfl⟩

/-- Settles O28: polls are allowed to readers of memory only, console reads to GETC and IN, and output requests to the output
routines. -/
theorem portsHaveTheirUsers : Obligations.PortsHaveTheirUsers := by
  intro i s t ht
  have hdoes := exec_does i s t ht
  refine ⟨fun hr hc => ?_, fun hw => ?_⟩
  · have hpoll : ¬ allowed i .poll := Bool.eq_false_iff.mp hr
    have htake : ¬ allowed i .take := Bool.eq_false_iff.mp hc
    refine Prod.mk.inj (hdoes.unchanged (f := fun u => (u.input, u.consumed)) fun k u v hk he => ?_)
    obtain ⟨hi, hc⟩ := he.input_unchanged (by rintro rfl; exact hpoll hk) (by rintro rfl; exact htake hk)
    rw [hi, hc]
  · have hout : ¬ allowed i .output := Bool.eq_false_iff.mp hw
    refine Prod.mk.inj (hdoes.unchanged_of_not (f := fun u => (u.output, u.outputBudget)) (fun he hk => ?_) hout)
    obtain ⟨ho, hb⟩ := he.output_unchanged hk
    rw [ho, hb]

theorem step_of_not_running {s : State} (h : s.run ≠ .running) : step s = .fault .blockStopped := by
  cases hr : s.run with
  | running => exact absurd hr h
  | stopped c n => simp [step, hr]

/-- Settles O14: a RUNNING block has a next state or holds by its use of the ports, and a STOPPED one takes no step. -/
theorem everyStateStepsOrWaits : Obligations.EveryStateStepsOrWaits := by
  intro s
  by_cases hr : s.run = .running
  · have h := step_usesPorts hr
    cases hs : step s with
    | next t => exact .inl ⟨t, hs⟩
    | fault f =>
      rw [hs] at h
      obtain ⟨rfl, heof⟩ := h
      exact .inr (.inr ⟨hr, heof, hs⟩)
    | refused r =>
      rw [hs] at h
      exact h.elim
  · exact .inr (.inl ⟨hr, step_of_not_running hr⟩)

end Sys2Proof.Machine
end

section
/-! PROOFS. A list of output requests: the host accepts them all, or fails the first one past its budget (rules R8, R172). -/

namespace Sys2Proof.Machine

/-- The output requests `es`, one after the other. -/
def emitAll : List ConsoleEvent → State → Written
  | [], s => .done s
  | e :: es, s => (emit e s).andThen (emitAll es)

@[simp] theorem State.wrote_nil (s : State) : s.wrote [] = s := by
  simp [State.wrote]

theorem State.wrote_wrote (s : State) (es es' : List ConsoleEvent) : (s.wrote es).wrote es' = s.wrote (es ++ es') := by
  simp [State.wrote, Function.comp_def, Nat.sub_sub]

theorem State.failedAfter_wrote (s : State) (es es' : List ConsoleEvent) :
    (s.wrote es).failedAfter es' = s.failedAfter (es ++ es') := by
  unfold State.failedAfter
  rw [State.wrote_wrote]
  rfl

theorem State.accepts.mono {s : State} {n m : Nat} (h : s.accepts n) (hm : m ≤ n) : s.accepts m :=
  fun k hk => hm.trans (h k hk)

theorem emit_accepted {e : ConsoleEvent} {s : State} (h : s.accepts 1) : emit e s = .done (s.wrote [e]) := by
  rcases hb : s.outputBudget with _ | _ | k
  · rw [emit_never e hb]
    simp [State.wrote, hb]
  · exact absurd (h 0 hb) (by decide)
  · rw [emit_budget e hb]
    simp [State.wrote, hb]

theorem emitAll_accepted {es : List ConsoleEvent} {s : State} (h : s.accepts es.length) :
    emitAll es s = .done (s.wrote es) := by
  induction es generalizing s with
  | nil => rw [State.wrote_nil]; rfl
  | cons e es ih =>
    have hrest : (s.wrote [e]).accepts es.length := by
      intro k hk
      obtain ⟨n, hn, rfl⟩ := Option.map_eq_some_iff.mp hk
      exact Nat.le_sub_of_add_le (h n hn)
    rw [emitAll, emit_accepted (h.mono (by simp)), Written.andThen_done, ih hrest, State.wrote_wrote]
    rfl

theorem emitAll_failed {es : List ConsoleEvent} {s : State} {n : Nat} (hb : s.outputBudget = some n)
    (hn : n < es.length) : emitAll es s = .failed (s.failedAfter (es.take n)) := by
  induction es generalizing s n with
  | nil => exact absurd hn (Nat.not_lt_zero n)
  | cons e es ih =>
    cases n with
    | zero =>
      rw [emitAll, emit_fail e hb, Written.andThen_failed, List.take_zero, State.failedAfter, State.wrote_nil]
      rfl
    | succ n =>
      have hacc : s.accepts 1 := by simp [State.accepts, hb]
      have hrest : (s.wrote [e]).outputBudget = some n := by simp [State.wrote, hb]
      rw [emitAll, emit_accepted hacc, Written.andThen_done, ih hrest (Nat.lt_of_succ_lt_succ hn),
        State.failedAfter_wrote]
      rfl

theorem emitAll_singleton (e : ConsoleEvent) (s : State) : emitAll [e] s = emit e s := by
  rw [emitAll]
  cases emit e s <;> rfl

theorem emitAll_append (es es' : List ConsoleEvent) (s : State) :
    emitAll (es ++ es') s = (emitAll es s).andThen (emitAll es') := by
  induction es generalizing s with
  | nil => rfl
  | cons e es ih =>
    rw [List.cons_append, emitAll, emitAll]
    cases emit e s with
    | done t => exact ih t
    | failed t => rfl

/-- Requests after accepted ones. -/
theorem emitAll_wrote {es : List ConsoleEvent} {s : State} (h : s.accepts es.length) (es' : List ConsoleEvent) :
    emitAll es' (s.wrote es) = emitAll (es ++ es') s := by
  rw [emitAll_append, emitAll_accepted h, Written.andThen_done]

theorem emitAll_framed (es : List ConsoleEvent) (s : State) : (emitAll es s).Framed s := by
  induction es generalizing s with
  | nil => exact ⟨.refl s, rfl⟩
  | cons e es ih => exact (emit_framed e s).andThen ih

/-! ### What PUTS and PUTSP output for a word (rules R175, R179) -/

theorem lowByte_eq_ofNat (w : Word) : lowByte w = BitVec.ofNat 8 w.toNat := by
  apply BitVec.eq_of_toNat_eq
  rw [lowByte_toNat, BitVec.toNat_ofNat, field, pow_zero, Nat.div_one]

theorem highByte_eq_ofNat (w : Word) : highByte w = BitVec.ofNat 8 (w.toNat / 256) := by
  apply BitVec.eq_of_toNat_eq
  rw [highByte_toNat, BitVec.toNat_ofNat]
  rfl

theorem highByte_eq_zero_iff (w : Word) : highByte w = 0x00#8 ↔ w.toNat / 256 = 0 := by
  have := w.isLt
  rw [byte_eq_zero_iff, highByte_eq_ofNat, BitVec.toNat_ofNat]
  omega

theorem putsWord_eq_emitAll : putsWord = fun w => emitAll (putsEvents w) := by
  funext w s
  rw [putsEvents, emitAll_singleton, ← lowByte_eq_ofNat]
  rfl

theorem putspWord_eq_emitAll : putspWord = fun w => emitAll (putspEvents w) := by
  funext w s
  rw [putspWord, putspEvents, ← lowByte_eq_ofNat, ← highByte_eq_ofNat, emitAll]
  congr 1
  funext t
  by_cases h : highByte w = 0x00#8
  · rw [if_pos h, if_pos ((highByte_eq_zero_iff w).mp h)]
    rfl
  · rw [if_neg h, if_neg fun h' => h ((highByte_eq_zero_iff w).mpr h'), emitAll_singleton]
    rfl

end Sys2Proof.Machine
end

section
/-! PROOFS. A string routine without its fuel: the walk from an address and the flush after it satisfy the recursion that the
rules give (rules R175, R176, R179), word by word, over a string away from KBSR_ADDR, and at KBSR_ADDR. -/

namespace Sys2Proof.Machine

theorem Flow.andThen_assoc {α β γ : Type} (x : Flow α) (k : α → State → Flow β) (k' : β → State → Flow γ) :
    (x.andThen k).andThen k' = x.andThen fun a s => (k a s).andThen k' := by
  cases x <;> rfl

theorem Flow.andThen_congr {α β : Type} {x : Flow α} {k k' : α → State → Flow β}
    (h : ∀ a t, x = .ok a t → k a t = k' a t) : x.andThen k = x.andThen k' := by
  cases x with
  | ok a t => exact h a t rfl
  | stop t => rw [Flow.andThen_stop, Flow.andThen_stop]
  | stuck f => rw [Flow.andThen_stuck, Flow.andThen_stuck]

/-- Statements after output requests matter only on states that differ from the first by output. -/
theorem emitAll_andThen_congr {β : Type} {es : List ConsoleEvent} {s : State} {k k' : Unit → State → Flow β}
    (h : ∀ t, Written.Frame s t → k () t = k' () t) :
    (emitAll es s).flow.andThen k = (emitAll es s).flow.andThen k' := by
  have hf := emitAll_framed es s
  cases hp : emitAll es s with
  | done t =>
    rw [hp] at hf
    exact h t hf.1
  | failed t => rw [Written.flow_failed, Flow.andThen_stop, Flow.andThen_stop]

/-! ### Enough fuel -/

/-- A bound on the words that a walk at `a` can read before it ends, stops or holds (rule R176). -/
def walkBound (a : Word) (s : State) : Nat := toKbsr a + 65536 * s.input.length

/-- Reading a word brings the walk nearer to its bound: the address is nearer to KBSR_ADDR, or an answer has been taken. -/
theorem walkBound_memRead_lt {a : Word} {s t : State} {w : Word} (h : memRead a s = .ok w t) :
    walkBound (addWrap a 0x0001#16) t < walkBound a s := by
  unfold walkBound
  obtain ⟨hne, -, rfl⟩ | ⟨rfl, b, rest, hi, rfl, -⟩ := memRead_eq_ok h
  · have := toKbsr_next hne
    omega
  · simp only [State.pollByte_input, hi, toKbsr_after_kbsr, List.length_cons]
    omega

/-- Fuel above the bound is as good as any other. -/
theorem walk_eq_of_enough {put : Word → State → Written} (hput : ∀ w s, (put w s).Framed s) {n m : Nat} {a : Word}
    {s : State} (hn : walkBound a s < n) (hm : walkBound a s < m) : walk put n a s = walk put m a s := by
  have hfuel {k : Nat} (hk : walkBound a s < k) : walk put k a s ≠ .stuck .outOfFuel :=
    fun h => nomatch walk_stuck hput hk h
  rcases Nat.le_total n m with hle | hle
  · exact (walk_more_fuel hle (hfuel hn)).symm
  · exact walk_more_fuel hle (hfuel hm)

/-- The rest of PUTS or PUTSP from the address `a` on, where `events w` is output for a word `w`: the walk and the flush. -/
def stringOut (events : Word → List ConsoleEvent) (a : Word) (s : State) : Flow Unit :=
  (walk (fun w => emitAll (events w)) (walkFuel s) a s).andThen fun _ t => (consoleFlush t).flow

theorem exec_puts_eq (s : State) : exec .puts s = (stringOut putsEvents (s.reg .r0) s).finish fun _ t => t := by
  show putString putsWord s = _
  rw [putsWord_eq_emitAll]
  rfl

theorem exec_putsp_eq (s : State) : exec .putsp s = (stringOut putspEvents (s.reg .r0) s).finish fun _ t => t := by
  show putString putspWord s = _
  rw [putspWord_eq_emitAll]
  rfl

section
variable {events : Word → List ConsoleEvent}

/-- One word of the string: a zero word ends it with the flush, any other is output and the next one follows. -/
theorem stringOut_eq (a : Word) (s : State) :
    stringOut events a s = (memRead a s).andThen fun w t =>
      if w = 0x0000#16 then (emitAll [.flush] t).flow
      else (emitAll (events w) t).flow.andThen fun _ u => stringOut events (addWrap a 0x0001#16) u := by
  have hfuel : walkBound a s < walkFuel s := walkFuel_enough a s
  obtain ⟨n, hn⟩ : ∃ n, walkFuel s = n + 1 := Nat.exists_eq_add_one_of_ne_zero (by omega)
  rw [stringOut, hn, walk_succ, Flow.andThen_assoc]
  refine Flow.andThen_congr fun w t hm => ?_
  by_cases hw : w = 0x0000#16
  · rw [if_pos hw, if_pos hw, emitAll_singleton, Flow.andThen_ok, consoleFlush]
  · rw [if_neg hw, if_neg hw, Flow.andThen_assoc]
    refine emitAll_andThen_congr fun u hf => ?_
    have hlt := walkBound_memRead_lt hm
    have hin : walkBound (addWrap a 0x0001#16) u = walkBound (addWrap a 0x0001#16) t := by
      rw [walkBound, walkBound, hf.input]
    rw [stringOut, walk_eq_of_enough (fun w s => emitAll_framed (events w) s) (by omega) (walkFuel_enough _ u)]

/-! ### Strings away from KBSR_ADDR -/

/-- The words from `a` on are `ws`, none of them zero and none at KBSR_ADDR, and `b` is the address after them. -/
def WordsTo (m : Memory) : Word → List Word → Word → Prop
  | a, [], b => a = b
  | a, w :: ws, b => a ≠ kbsrAddr ∧ m.read a = w ∧ w ≠ 0x0000#16 ∧ WordsTo m (a + 1) ws b

theorem StringToKbsr.wordsTo {m : Memory} {a : Word} {ws : List Word} (h : StringToKbsr m a ws) :
    WordsTo m a ws kbsrAddr := by
  induction ws generalizing a with
  | nil => exact h
  | cons w ws ih =>
    obtain ⟨hne, hread, hw, hrest⟩ := h
    exact ⟨hne, hread, hw, ih hrest⟩

theorem StringAt.wordsTo {m : Memory} {a : Word} {ws : List Word} (h : StringAt m a ws) :
    ∃ b, WordsTo m a ws b ∧ b ≠ kbsrAddr ∧ m.read b = 0x0000#16 := by
  induction ws generalizing a with
  | nil => exact ⟨a, rfl, h⟩
  | cons w ws ih =>
    obtain ⟨hne, hread, hw, hrest⟩ := h
    obtain ⟨b, hwords, hend⟩ := ih hrest
    exact ⟨b, ⟨hne, hread, hw, hwords⟩, hend⟩

theorem stringOut_wordsTo {a b : Word} {ws : List Word} {s : State} (h : WordsTo s.mem a ws b) :
    stringOut events a s = (emitAll (ws.flatMap events) s).flow.andThen fun _ t => stringOut events b t := by
  induction ws generalizing a s with
  | nil =>
    obtain rfl := h
    rw [List.flatMap_nil, emitAll, Written.flow_done, Flow.andThen_ok]
  | cons w ws ih =>
    obtain ⟨hne, hread, hw, hrest⟩ := h
    rw [stringOut_eq, memRead_plain hne, Flow.andThen_ok, hread, if_neg hw, List.flatMap_cons, emitAll_append,
      Written.andThen_flow, Flow.andThen_assoc]
    exact emitAll_andThen_congr fun t hf => ih (hf.mem ▸ hrest)

/-- A whole string away from KBSR_ADDR is output and flushed. -/
theorem stringOut_stringAt {a : Word} {ws : List Word} {s : State} (h : StringAt s.mem a ws) :
    stringOut events a s = (emitAll (ws.flatMap events ++ [.flush]) s).flow := by
  obtain ⟨b, hwords, hne, hzero⟩ := h.wordsTo
  rw [stringOut_wordsTo hwords, emitAll_append, Written.andThen_flow]
  refine emitAll_andThen_congr fun t hf => ?_
  rw [stringOut_eq, memRead_plain hne, Flow.andThen_ok, hf.mem, if_pos hzero]

/-! ### At KBSR_ADDR (rules R46, R50, R51) -/

theorem stringOut_kbsr_eof {s : State} {rest : List ConsoleAnswer} (h : s.input = .eof :: rest) :
    stringOut events kbsrAddr s = .stop (s.inputEnded rest) := by
  rw [stringOut_eq, memRead_kbsr_eof h, Flow.andThen_stop]

theorem stringOut_kbsr_nil {s : State} (h : s.input = []) : stringOut events kbsrAddr s = .stuck .awaitingInput := by
  rw [stringOut_eq, memRead_kbsr_nil h, Flow.andThen_stuck]

/-- A byte makes KBSR the next word of the string: a zero one ends it. -/
theorem stringOut_kbsr_byte {s : State} {b : Byte} {rest : List ConsoleAnswer} (hwf : s.mem.wf = true)
    (h : s.input = .byte b :: rest) :
    stringOut events kbsrAddr s =
      if b.toNat = 0 then (emitAll [.flush] (s.polled b rest)).flow
      else (emitAll (events ((s.polled b rest).mem.read kbsrAddr)) (s.polled b rest)).flow.andThen
        fun _ t => stringOut events 0xFE01#16 t := by
  rw [stringOut_eq, memRead_kbsr_byte h, Flow.andThen_ok]
  exact if_congr (State.polled_polledBy hwf).kbsr_eq_zero_iff rfl rfl

end

/-! ### The walk reads no register -/

/-- `s` with other general registers. -/
def State.withRegs (s : State) (f : RegFile) : State := { s with regs := f }

def Flow.withRegs {α : Type} (f : RegFile) : Flow α → Flow α
  | .ok a s => .ok a (s.withRegs f)
  | .stop s => .stop (s.withRegs f)
  | .stuck e => .stuck e

theorem Flow.andThen_withRegs {α β : Type} {f : RegFile} (x : Flow α) {k : α → State → Flow β}
    (hk : ∀ a s, k a (s.withRegs f) = (k a s).withRegs f) : (x.withRegs f).andThen k = (x.andThen k).withRegs f := by
  cases x with
  | ok a s => exact hk a s
  | stop s => rfl
  | stuck e => rfl

theorem emit_withRegs (f : RegFile) (e : ConsoleEvent) (s : State) :
    (emit e (s.withRegs f)).flow = (emit e s).flow.withRegs f := by
  have hb : (s.withRegs f).outputBudget = s.outputBudget := rfl
  rcases h : s.outputBudget with _ | _ | k
  · rw [emit_never e h, emit_never e (hb.trans h)]; rfl
  · rw [emit_fail e h, emit_fail e (hb.trans h)]; rfl
  · rw [emit_budget e h, emit_budget e (hb.trans h)]; rfl

theorem emitAll_withRegs (f : RegFile) (es : List ConsoleEvent) (s : State) :
    (emitAll es (s.withRegs f)).flow = (emitAll es s).flow.withRegs f := by
  induction es generalizing s with
  | nil => rfl
  | cons e es ih =>
    rw [emitAll, emitAll, Written.andThen_flow, Written.andThen_flow, emit_withRegs]
    exact Flow.andThen_withRegs _ fun _ => ih

theorem consoleIn_withRegs (f : RegFile) (s : State) : consoleIn (s.withRegs f) = (consoleIn s).withRegs f := by
  have hin : (s.withRegs f).input = s.input := rfl
  rcases h : s.input with _ | ⟨⟨b⟩ | _, rest⟩
  · rw [consoleIn_nil h, consoleIn_nil (hin.trans h)]; rfl
  · rw [consoleIn_byte h, consoleIn_byte (hin.trans h)]; rfl
  · rw [consoleIn_eof h, consoleIn_eof (hin.trans h)]; rfl

theorem State.pollByte_withRegs (f : RegFile) (s : State) (b : Byte) :
    (s.withRegs f).pollByte b = (s.pollByte b).withRegs f := by
  unfold State.pollByte
  split <;> rfl

theorem memRead_withRegs (f : RegFile) (a : Word) (s : State) :
    memRead a (s.withRegs f) = (memRead a s).withRegs f := by
  by_cases ha : a = kbsrAddr
  · subst ha
    rw [memRead_kbsr, memRead_kbsr, consoleIn_withRegs]
    refine Flow.andThen_withRegs _ fun b t => ?_
    rw [State.pollByte_withRegs]
    rfl
  · rw [memRead_plain ha, memRead_plain ha]
    rfl

theorem walk_withRegs (events : Word → List ConsoleEvent) (f : RegFile) (fuel : Nat) (a : Word) (s : State) :
    walk (fun w => emitAll (events w)) fuel a (s.withRegs f) =
      (walk (fun w => emitAll (events w)) fuel a s).withRegs f := by
  induction fuel generalizing a s with
  | zero => rfl
  | succ fuel ih =>
    rw [walk_succ, walk_succ, memRead_withRegs]
    refine Flow.andThen_withRegs _ fun w t => ?_
    split
    · rfl
    · rw [emitAll_withRegs]
      exact Flow.andThen_withRegs _ fun _ u => ih _ u

theorem stringOut_withRegs (events : Word → List ConsoleEvent) (f : RegFile) (a : Word) (s : State) :
    stringOut events a (s.withRegs f) = (stringOut events a s).withRegs f := by
  show (walk _ (walkFuel s) a (s.withRegs f)).andThen _ = _
  rw [walk_withRegs]
  exact Flow.andThen_withRegs _ fun _ => emit_withRegs f .flush

/-- Running a string routine from other registers and putting the registers back. -/
theorem restoring_stringOut (events : Word → List ConsoleEvent) (f : RegFile) (a : Word) (s : State) :
    restoring s.regs ((stringOut events a (s.withRegs f)).finish fun _ t => t) =
      (stringOut events a s).finish fun _ t => t := by
  have hself : stringOut events a s = (stringOut events a s).withRegs s.regs := stringOut_withRegs events s.regs a s
  rw [stringOut_withRegs]
  conv_rhs => rw [hself]
  cases stringOut events a s <;> rfl

/-! ### A routine whose walk comes to KBSR_ADDR -/

/-- A poll and accepted output do not see each other. -/
theorem State.polled_wrote (s : State) (es : List ConsoleEvent) (b : Byte) (rest : List ConsoleAnswer) :
    (s.wrote es).polled b rest = (s.polled b rest).wrote es := by
  unfold State.polled State.pollByte
  split <;> rfl

theorem emitAll_flow_accepted {es : List ConsoleEvent} {s : State} (h : s.accepts es.length) :
    (emitAll es s).flow = .ok () (s.wrote es) := by
  rw [emitAll_accepted h, Written.flow_done]

theorem emitAll_flow_failed {es : List ConsoleEvent} {s : State} {n : Nat} (hb : s.outputBudget = some n)
    (hn : n < es.length) : (emitAll es s).flow = .stop (s.failedAfter (es.take n)) := by
  rw [emitAll_failed hb hn, Written.flow_failed]

section
variable {events : Word → List ConsoleEvent} {es : List ConsoleEvent} {s : State} {b : Byte} {rest : List ConsoleAnswer}
  (hwf : s.mem.wf = true) (hin : s.input = .byte b :: rest) (hacc : s.accepts es.length)
include hwf hin hacc

/-- The walk from KBSR_ADDR after accepted requests `es`, as all the requests from the state that its poll makes of the first
one. -/
theorem stringOut_wrote_kbsr_byte :
    stringOut events kbsrAddr (s.wrote es) =
      if b.toNat = 0 then (emitAll (es ++ [.flush]) (s.polled b rest)).flow
      else (emitAll (es ++ events ((s.polled b rest).mem.read 0xFE00#16)) (s.polled b rest)).flow.andThen
        fun _ t => stringOut events 0xFE01#16 t := by
  have haccu : (s.polled b rest).accepts es.length := by
    rw [State.polled_eq]
    exact hacc
  rw [stringOut_kbsr_byte (s := s.wrote es) hwf hin, State.polled_wrote, emitAll_wrote haccu, emitAll_wrote haccu]
  rfl

/-- What PUTS or PUTSP does from its poll on. -/
theorem walkPastKbsr {i : Instr} (hi : ∀ t, exec i t = (stringOut events (t.reg .r0) t).finish fun _ u => u) :
    WalkPastKbsr i events es b (s.polled b rest) ((stringOut events kbsrAddr (s.wrote es)).finish fun _ u => u) := by
  rw [stringOut_wrote_kbsr_byte hwf hin hacc]
  generalize s.polled b rest = u
  exact {
    ended := fun hb h => by
      rw [if_pos hb, emitAll_flow_accepted (by simpa using h), Flow.finish_ok]
    flushFails := fun hb h => by
      rw [if_pos hb, emitAll_flow_failed h (by simp), List.take_left, Flow.finish_stop]
    goesOn := fun hb h => by
      rw [if_neg hb, emitAll_flow_accepted h, Flow.andThen_ok, hi]
      exact (restoring_stringOut events _ _ _).symm
    statusFails := fun hb n h _ hlt => by
      rw [if_neg hb, emitAll_flow_failed h hlt, Flow.andThen_stop, Flow.finish_stop]
    whole := fun hb ws hws h => by
      have hpre : u.accepts (es ++ events (u.mem.read 0xFE00#16)).length := by
        rw [List.append_assoc, List.length_append] at h
        exact h.mono (Nat.le_add_right _ _)
      rw [List.append_assoc] at h ⊢
      rw [if_neg hb, emitAll_flow_accepted hpre, Flow.andThen_ok, stringOut_stringAt (s := u.wrote _) hws,
        emitAll_wrote hpre, emitAll_flow_accepted h, Flow.finish_ok] }

end

/-- Settles O49: the routine is the requests of the words before KBSR_ADDR and then the walk from KBSR_ADDR. -/
theorem putsPollsAtKbsr : Obligations.PutsPollsAtKbsr := by
  refine ⟨rfl, rfl, ?_⟩
  rintro i events s ws es hroutine hinv hws rfl
  have hi : ∀ t, exec i t = (stringOut events (t.reg .r0) t).finish fun _ u => u := by
    obtain ⟨rfl, rfl⟩ | ⟨rfl, rfl⟩ := hroutine
    · exact exec_puts_eq
    · exact exec_putsp_eq
  have hx : exec i s = ((emitAll (ws.flatMap events) s).flow.andThen fun _ t => stringOut events kbsrAddr t).finish
      fun _ u => u := by
    rw [hi, stringOut_wordsTo hws.wordsTo]
  refine ⟨fun n hb hn => ?_, fun hacc => ?_⟩
  · rw [hx, emitAll_flow_failed hb hn, Flow.andThen_stop, Flow.finish_stop]
  rw [hx, emitAll_flow_accepted hacc, Flow.andThen_ok]
  refine ⟨fun b rest hin => ?_, fun rest hin => ?_, fun hin => ?_⟩
  · exact ⟨s.polled b rest, State.polled_polledBy hinv.mem_wf, s.polled_eq b rest,
      walkPastKbsr hinv.mem_wf hin hacc hi⟩
  · rw [stringOut_kbsr_eof (s := s.wrote _) hin, Flow.finish_stop]
  · rw [stringOut_kbsr_nil (s := s.wrote _) hin, Flow.finish_stuck]

end Sys2Proof.Machine
end

section
/-! PROOFS. The word formats of rule R71: which fields an encoded word has, and that a word is the append of its fields. With
them decode and encode are inverse up to the unused bits (rules R71-R76, R83, R84). -/

namespace Sys2Proof

/-! ### The fields of a word put together from fields (rule R71) -/

section
variable (op : BitVec 4) (a b c : BitVec 3)

theorem off9Form_fields (off : BitVec 9) :
    field11to9 (op ++ a ++ off) = a ∧ pcOffset9Of (op ++ a ++ off) = off := by
  simp (disch := decide) only [field11to9, pcOffset9Of, BitVec.extractLsb'_append_eq_of_le,
    BitVec.extractLsb'_append_eq_right, Nat.reduceSub, and_self]

theorem off6Form_fields (off : BitVec 6) :
    field11to9 (op ++ a ++ b ++ off) = a ∧ field8to6 (op ++ a ++ b ++ off) = b ∧
      offset6Of (op ++ a ++ b ++ off) = off := by
  simp (disch := decide) only [field11to9, field8to6, offset6Of, BitVec.extractLsb'_append_eq_of_le,
    BitVec.extractLsb'_append_eq_right, Nat.reduceSub, and_self]

theorem imm5Form_fields (imm5 : BitVec 5) :
    field11to9 (op ++ a ++ b ++ 1#1 ++ imm5) = a ∧ field8to6 (op ++ a ++ b ++ 1#1 ++ imm5) = b ∧
      imm5Of (op ++ a ++ b ++ 1#1 ++ imm5) = imm5 := by
  simp (disch := decide) only [field11to9, field8to6, imm5Of, BitVec.extractLsb'_append_eq_of_le,
    BitVec.extractLsb'_append_eq_right, Nat.reduceSub, and_self]

theorem imm5Form_immediateMode (imm5 : BitVec 5) : immediateMode (op ++ a ++ b ++ 1#1 ++ imm5) = true := by
  simp (disch := decide) only [immediateMode, BitVec.getLsbD_eq_extractLsb', BitVec.extractLsb'_append_eq_of_le,
    BitVec.extractLsb'_append_eq_right, Nat.reduceSub, BEq.rfl]

theorem registerForm_fields :
    field11to9 (op ++ a ++ b ++ 0#1 ++ 0#2 ++ c) = a ∧ field8to6 (op ++ a ++ b ++ 0#1 ++ 0#2 ++ c) = b ∧
      field2to0 (op ++ a ++ b ++ 0#1 ++ 0#2 ++ c) = c := by
  simp (disch := decide) only [field11to9, field8to6, field2to0, BitVec.extractLsb'_append_eq_of_le,
    BitVec.extractLsb'_append_eq_right, Nat.reduceSub, and_self]

theorem registerForm_immediateMode : immediateMode (op ++ a ++ b ++ 0#1 ++ 0#2 ++ c) = false := by
  simp (disch := decide) only [immediateMode, BitVec.getLsbD_eq_extractLsb', BitVec.extractLsb'_append_eq_of_le,
    BitVec.extractLsb'_append_eq_right, Nat.reduceSub]
  decide

theorem jsrForm_field (off : BitVec 11) : pcOffset11Of (op ++ 1#1 ++ off) = off := BitVec.extractLsb'_append_eq_right

theorem jsrForm_longFlag (off : BitVec 11) : longFlag (op ++ 1#1 ++ off) = true := by
  simp (disch := decide) only [longFlag, BitVec.getLsbD_eq_extractLsb', BitVec.extractLsb'_append_eq_of_le,
    BitVec.extractLsb'_append_eq_right, Nat.reduceSub, BEq.rfl]

theorem jsrrForm_field : field8to6 (op ++ 0#1 ++ 0#2 ++ b ++ 0#6) = b := by
  simp (disch := decide) only [field8to6, BitVec.extractLsb'_append_eq_of_le, BitVec.extractLsb'_append_eq_right,
    Nat.reduceSub]

theorem jsrrForm_longFlag : longFlag (op ++ 0#1 ++ 0#2 ++ b ++ 0#6) = false := by
  simp (disch := decide) only [longFlag, BitVec.getLsbD_eq_extractLsb', BitVec.extractLsb'_append_eq_of_le,
    BitVec.extractLsb'_append_eq_right, Nat.reduceSub]
  decide

theorem trapForm_field (v : BitVec 8) : trapvect8Of (op ++ 0#4 ++ v) = v := BitVec.extractLsb'_append_eq_right

end

/-! ### Decode of encode -/

theorem decodeJmp_of_ne {baseR : Reg} (h : baseR ≠ .r7) : decodeJmp baseR = .jmp baseR := if_neg h

theorem decodeTrap_of_not_known {v : BitVec 8} (h : Machine.knownVector v = false) : decodeTrap v = .trap v := by
  simp only [Machine.knownVector, Bool.or_eq_false_iff, beq_eq_false_iff_ne] at h
  obtain ⟨⟨⟨⟨⟨hgetc, hout⟩, hputs⟩, hin⟩, hputsp⟩, hhalt⟩ := h
  rw [decodeTrap, if_neg hgetc, if_neg hout, if_neg hputs, if_neg hin, if_neg hputsp, if_neg hhalt]

open Laws in
/-- Settles O1: the opcode names the row, and each field is read back from where the row's format puts it. -/
theorem decodeOfEncodeIsIdentity : Obligations.DecodeOfEncodeIsIdentity := by
  intro i hwf
  cases i with
  | addReg dr sr1 sr2 =>
    rw [decodeWord_addReg (OpcodeNibble.addReg dr sr1 sr2) (registerForm_immediateMode ..)]
    simp only [encode, regAt11, regAt8, regAt2, registerForm_fields, Reg.ofBits_bits]
  | addImm dr sr1 imm5 =>
    rw [decodeWord_addImm (OpcodeNibble.addImm dr sr1 imm5) (imm5Form_immediateMode ..)]
    simp only [encode, regAt11, regAt8, imm5Form_fields, Reg.ofBits_bits]
  | andReg dr sr1 sr2 =>
    rw [decodeWord_andReg (OpcodeNibble.andReg dr sr1 sr2) (registerForm_immediateMode ..)]
    simp only [encode, regAt11, regAt8, regAt2, registerForm_fields, Reg.ofBits_bits]
  | andImm dr sr1 imm5 =>
    rw [decodeWord_andImm (OpcodeNibble.andImm dr sr1 imm5) (imm5Form_immediateMode ..)]
    simp only [encode, regAt11, regAt8, imm5Form_fields, Reg.ofBits_bits]
  | not dr sr =>
    rw [decodeWord_not (OpcodeNibble.not dr sr)]
    simp only [encode, regAt11, regAt8, off6Form_fields, Reg.ofBits_bits]
  | br nzp off =>
    rw [decodeWord_br (OpcodeNibble.br nzp off)]
    simp only [encode, off9Form_fields]
  | ld dr off =>
    rw [decodeWord_ld (OpcodeNibble.ld dr off)]
    simp only [encode, regAt11, off9Form_fields, Reg.ofBits_bits]
  | st sr off =>
    rw [decodeWord_st (OpcodeNibble.st sr off)]
    simp only [encode, regAt11, off9Form_fields, Reg.ofBits_bits]
  | jsr off =>
    rw [decodeWord_jsr (OpcodeNibble.jsr off) (jsrForm_longFlag ..)]
    simp only [encode, jsrForm_field]
  | jsrr baseR =>
    rw [decodeWord_jsrr (OpcodeNibble.jsrr baseR) (jsrrForm_longFlag ..)]
    simp only [encode, regAt8, jsrrForm_field, Reg.ofBits_bits]
  | ldr dr baseR off =>
    rw [decodeWord_ldr (OpcodeNibble.ldr dr baseR off)]
    simp only [encode, regAt11, regAt8, off6Form_fields, Reg.ofBits_bits]
  | str sr baseR off =>
    rw [decodeWord_str (OpcodeNibble.str sr baseR off)]
    simp only [encode, regAt11, regAt8, off6Form_fields, Reg.ofBits_bits]
  | ldi dr off =>
    rw [decodeWord_ldi (OpcodeNibble.ldi dr off)]
    simp only [encode, regAt11, off9Form_fields, Reg.ofBits_bits]
  | sti sr off =>
    rw [decodeWord_sti (OpcodeNibble.sti sr off)]
    simp only [encode, regAt11, off9Form_fields, Reg.ofBits_bits]
  | lea dr off =>
    rw [decodeWord_lea (OpcodeNibble.lea dr off)]
    simp only [encode, regAt11, off9Form_fields, Reg.ofBits_bits]
  | jmp baseR =>
    rw [decodeWord_jmp (OpcodeNibble.jmp baseR)]
    simp only [encode, regAt8, off6Form_fields, Reg.ofBits_bits]
    exact decodeJmp_of_ne (bne_iff_ne.mp hwf)
  | trap v =>
    rw [decodeWord_trap (OpcodeNibble.trap v)]
    simp only [encode, trapForm_field]
    exact decodeTrap_of_not_known (Bool.not_eq_true' _ ▸ hwf)
  | rti | ret | res | getc | out | puts | inp | putsp | halt => rfl

/-! ### What a word decodes to -/

/-- The decoder's rows: what a word decodes to, by its opcode and its form bit (rules R73, R74). -/
inductive DecodesTo (w : Word) : Instr → Prop
  | br (h : opcodeOf w = 0x0#4) : DecodesTo w (.br (field11to9 w) (pcOffset9Of w))
  | addImm (h : opcodeOf w = 0x1#4) (hm : immediateMode w = true) :
    DecodesTo w (.addImm (regAt11 w) (regAt8 w) (imm5Of w))
  | addReg (h : opcodeOf w = 0x1#4) (hm : immediateMode w = false) :
    DecodesTo w (.addReg (regAt11 w) (regAt8 w) (regAt2 w))
  | ld (h : opcodeOf w = 0x2#4) : DecodesTo w (.ld (regAt11 w) (pcOffset9Of w))
  | st (h : opcodeOf w = 0x3#4) : DecodesTo w (.st (regAt11 w) (pcOffset9Of w))
  | jsr (h : opcodeOf w = 0x4#4) (hl : longFlag w = true) : DecodesTo w (.jsr (pcOffset11Of w))
  | jsrr (h : opcodeOf w = 0x4#4) (hl : longFlag w = false) : DecodesTo w (.jsrr (regAt8 w))
  | andImm (h : opcodeOf w = 0x5#4) (hm : immediateMode w = true) :
    DecodesTo w (.andImm (regAt11 w) (regAt8 w) (imm5Of w))
  | andReg (h : opcodeOf w = 0x5#4) (hm : immediateMode w = false) :
    DecodesTo w (.andReg (regAt11 w) (regAt8 w) (regAt2 w))
  | ldr (h : opcodeOf w = 0x6#4) : DecodesTo w (.ldr (regAt11 w) (regAt8 w) (offset6Of w))
  | str (h : opcodeOf w = 0x7#4) : DecodesTo w (.str (regAt11 w) (regAt8 w) (offset6Of w))
  | rti (h : opcodeOf w = 0x8#4) : DecodesTo w .rti
  | not (h : opcodeOf w = 0x9#4) : DecodesTo w (.not (regAt11 w) (regAt8 w))
  | ldi (h : opcodeOf w = 0xA#4) : DecodesTo w (.ldi (regAt11 w) (pcOffset9Of w))
  | sti (h : opcodeOf w = 0xB#4) : DecodesTo w (.sti (regAt11 w) (pcOffset9Of w))
  | jmp (h : opcodeOf w = 0xC#4) : DecodesTo w (decodeJmp (regAt8 w))
  | res (h : opcodeOf w = 0xD#4) : DecodesTo w .res
  | lea (h : opcodeOf w = 0xE#4) : DecodesTo w (.lea (regAt11 w) (pcOffset9Of w))
  | trap (h : opcodeOf w = 0xF#4) : DecodesTo w (decodeTrap (trapvect8Of w))

theorem opcode_cases (op : BitVec 4) :
    op = 0x0#4 ∨ op = 0x1#4 ∨ op = 0x2#4 ∨ op = 0x3#4 ∨ op = 0x4#4 ∨ op = 0x5#4 ∨ op = 0x6#4 ∨ op = 0x7#4 ∨
      op = 0x8#4 ∨ op = 0x9#4 ∨ op = 0xA#4 ∨ op = 0xB#4 ∨ op = 0xC#4 ∨ op = 0xD#4 ∨ op = 0xE#4 ∨ op = 0xF#4 := by
  revert op; decide

theorem decodeWord_decodesTo (w : Word) : DecodesTo w (decodeWord w) := by
  rcases opcode_cases (opcodeOf w) with h | h | h | h | h | h | h | h | h | h | h | h | h | h | h | h
  · exact decodeWord_br h ▸ .br h
  · cases hm : immediateMode w
    · exact decodeWord_addReg h hm ▸ .addReg h hm
    · exact decodeWord_addImm h hm ▸ .addImm h hm
  · exact decodeWord_ld h ▸ .ld h
  · exact decodeWord_st h ▸ .st h
  · cases hl : longFlag w
    · exact decodeWord_jsrr h hl ▸ .jsrr h hl
    · exact decodeWord_jsr h hl ▸ .jsr h hl
  · cases hm : immediateMode w
    · exact decodeWord_andReg h hm ▸ .andReg h hm
    · exact decodeWord_andImm h hm ▸ .andImm h hm
  · exact decodeWord_ldr h ▸ .ldr h
  · exact decodeWord_str h ▸ .str h
  · exact decodeWord_rti h ▸ .rti h
  · exact decodeWord_not h ▸ .not h
  · exact decodeWord_ldi h ▸ .ldi h
  · exact decodeWord_sti h ▸ .sti h
  · exact decodeWord_jmp h ▸ .jmp h
  · exact decodeWord_res h ▸ .res h
  · exact decodeWord_lea h ▸ .lea h
  · exact decodeWord_trap h ▸ .trap h

/-- JMP or RET: the decoder's name for BaseR, and its word with BaseR at [8:6] (rules R153, R154). -/
theorem decodeJmp_spec (baseR : Reg) :
    (decodeJmp baseR).wellFormed = true ∧ (decodeJmp baseR).opcode = 0xC#4 ∧
      encode (decodeJmp baseR) = 0xC#4 ++ 0#3 ++ baseR.bits ++ 0#6 := by
  cases baseR <;> exact ⟨rfl, rfl, rfl⟩

/-- TRAP or a routine: the decoder's name for the vector, and its word with the vector at [7:0] (rules R83, R170). -/
theorem decodeTrap_spec (v : BitVec 8) :
    (decodeTrap v).wellFormed = true ∧ (decodeTrap v).opcode = 0xF#4 ∧
      encode (decodeTrap v) = 0xF#4 ++ 0#4 ++ v := by
  cases hv : Machine.knownVector v with
  | false =>
    rw [decodeTrap_of_not_known hv]
    exact ⟨congrArg (!·) hv, rfl, rfl⟩
  | true =>
    simp only [Machine.knownVector, Bool.or_eq_true, beq_iff_eq] at hv
    obtain ((((rfl | rfl) | rfl) | rfl) | rfl) | rfl := hv <;> exact ⟨rfl, rfl, rfl⟩

theorem DecodesTo.wellFormed {w : Word} {i : Instr} (h : DecodesTo w i) : i.wellFormed = true := by
  cases h with
  | jmp => exact (decodeJmp_spec _).1
  | trap => exact (decodeTrap_spec _).1
  | br | addImm | addReg | ld | st | jsr | jsrr | andImm | andReg | ldr | str | rti | not | ldi | sti | res | lea => rfl

theorem DecodesTo.opcode {w : Word} {i : Instr} (h : DecodesTo w i) : i.opcode = opcodeOf w := by
  cases h with
  | jmp h =>
    obtain ⟨-, hop, -⟩ := decodeJmp_spec (regAt8 w)
    rw [hop, h]
  | trap h =>
    obtain ⟨-, hop, -⟩ := decodeTrap_spec (trapvect8Of w)
    rw [hop, h]
  | br h | addImm h | addReg h | ld h | st h | jsr h | jsrr h | andImm h | andReg h | ldr h | str h | rti h | not h | ldi h
  | sti h | res h | lea h => exact h.symm

/-- Settles O4: each row of the decoder is well formed and has the row's opcode. -/
theorem everyWordDecodesByItsOpcode : Obligations.EveryWordDecodesByItsOpcode := by
  intro w
  have h := decodeWord_decodesTo w
  refine ⟨h.wellFormed, ?_⟩
  rw [h.opcode, Machine.field_eq_extractLsb' w rfl]
  rfl

/-! ### Encode of decode -/

@[simp] theorem regAt11_bits (w : Word) : (regAt11 w).bits = field11to9 w := Reg.bits_ofBits _
@[simp] theorem regAt8_bits (w : Word) : (regAt8 w).bits = field8to6 w := Reg.bits_ofBits _
@[simp] theorem regAt2_bits (w : Word) : (regAt2 w).bits = field2to0 w := Reg.bits_ofBits _

/-- The slice of one bit. -/
theorem extractLsb'_one (w : Word) (i : Nat) : w.extractLsb' i 1 = BitVec.ofBool (w.getLsbD i) := by
  ext j hj
  simp [Nat.lt_one_iff.mp hj]

theorem bit5_of_immediateMode {w : Word} {m : Bool} (h : immediateMode w = m) : w.extractLsb' 5 1 = BitVec.ofBool m := by
  rw [extractLsb'_one, ← h, immediateMode]

theorem bit11_of_longFlag {w : Word} {l : Bool} (h : longFlag w = l) : w.extractLsb' 11 1 = BitVec.ofBool l := by
  rw [extractLsb'_one, ← h, longFlag]

section
variable {w : Word} {op : BitVec 4} (h : opcodeOf w = op)
include h

theorem off9Form_eq : op ++ field11to9 w ++ pcOffset9Of w = w := by
  subst h
  simp only [opcodeOf, field11to9, pcOffset9Of, BitVec.extractLsb'_append_extractLsb'_eq_extractLsb']
  exact BitVec.extractLsb'_eq_self

theorem off6Form_eq : op ++ field11to9 w ++ field8to6 w ++ offset6Of w = w := by
  subst h
  simp only [opcodeOf, field11to9, field8to6, offset6Of, BitVec.extractLsb'_append_extractLsb'_eq_extractLsb']
  exact BitVec.extractLsb'_eq_self

theorem imm5Form_eq (hm : immediateMode w = true) : op ++ field11to9 w ++ field8to6 w ++ 1#1 ++ imm5Of w = w := by
  rw [show 1#1 = _ from (bit5_of_immediateMode hm).symm]
  subst h
  simp only [opcodeOf, field11to9, field8to6, imm5Of, BitVec.extractLsb'_append_extractLsb'_eq_extractLsb']
  exact BitVec.extractLsb'_eq_self

theorem jsrForm_eq (hl : longFlag w = true) : op ++ 1#1 ++ pcOffset11Of w = w := by
  rw [show 1#1 = _ from (bit11_of_longFlag hl).symm]
  subst h
  simp only [opcodeOf, pcOffset11Of, BitVec.extractLsb'_append_extractLsb'_eq_extractLsb']
  exact BitVec.extractLsb'_eq_self

theorem registerForm_eq (hm : immediateMode w = false) :
    op ++ field11to9 w ++ field8to6 w ++ 0#1 ++ 0#2 ++ field2to0 w = w &&& 0xFFE7#16 := by
  have hw : op ++ field11to9 w ++ field8to6 w ++ 0#1 ++ w.extractLsb' 3 2 ++ field2to0 w = w := by
    rw [show 0#1 = _ from (bit5_of_immediateMode hm).symm]
    subst h
    simp only [opcodeOf, field11to9, field8to6, field2to0, BitVec.extractLsb'_append_extractLsb'_eq_extractLsb']
    exact BitVec.extractLsb'_eq_self
  symm
  calc w &&& 0xFFE7#16
    _ = (op ++ field11to9 w ++ field8to6 w ++ 0#1 ++ w.extractLsb' 3 2 ++ field2to0 w) &&&
        (BitVec.allOnes 4 ++ BitVec.allOnes 3 ++ BitVec.allOnes 3 ++ BitVec.allOnes 1 ++ 0#2 ++ BitVec.allOnes 3) :=
      congrArg (· &&& 0xFFE7#16) hw.symm
    _ = op ++ field11to9 w ++ field8to6 w ++ 0#1 ++ 0#2 ++ field2to0 w := by
      simp only [BitVec.and_append, BitVec.and_allOnes, BitVec.and_zero]

theorem notForm_eq : op ++ field11to9 w ++ field8to6 w ++ 0#6 = w &&& 0xFFC0#16 := by
  symm
  calc w &&& 0xFFC0#16
    _ = (op ++ field11to9 w ++ field8to6 w ++ offset6Of w) &&&
        (BitVec.allOnes 4 ++ BitVec.allOnes 3 ++ BitVec.allOnes 3 ++ 0#6) :=
      congrArg (· &&& 0xFFC0#16) (off6Form_eq h).symm
    _ = op ++ field11to9 w ++ field8to6 w ++ 0#6 := by
      simp only [BitVec.and_append, BitVec.and_allOnes, BitVec.and_zero]

theorem jmpForm_eq : op ++ 0#3 ++ field8to6 w ++ 0#6 = w &&& 0xF1C0#16 := by
  symm
  calc w &&& 0xF1C0#16
    _ = (op ++ field11to9 w ++ field8to6 w ++ offset6Of w) &&& (BitVec.allOnes 4 ++ 0#3 ++ BitVec.allOnes 3 ++ 0#6) :=
      congrArg (· &&& 0xF1C0#16) (off6Form_eq h).symm
    _ = op ++ 0#3 ++ field8to6 w ++ 0#6 := by
      simp only [BitVec.and_append, BitVec.and_allOnes, BitVec.and_zero]

theorem jsrrForm_eq (hl : longFlag w = false) : op ++ 0#1 ++ 0#2 ++ field8to6 w ++ 0#6 = w &&& 0xF9C0#16 := by
  have hw : op ++ 0#1 ++ w.extractLsb' 9 2 ++ field8to6 w ++ offset6Of w = w := by
    rw [show 0#1 = _ from (bit11_of_longFlag hl).symm]
    subst h
    simp only [opcodeOf, field8to6, offset6Of, BitVec.extractLsb'_append_extractLsb'_eq_extractLsb']
    exact BitVec.extractLsb'_eq_self
  symm
  calc w &&& 0xF9C0#16
    _ = (op ++ 0#1 ++ w.extractLsb' 9 2 ++ field8to6 w ++ offset6Of w) &&&
        (BitVec.allOnes 4 ++ BitVec.allOnes 1 ++ 0#2 ++ BitVec.allOnes 3 ++ 0#6) :=
      congrArg (· &&& 0xF9C0#16) hw.symm
    _ = op ++ 0#1 ++ 0#2 ++ field8to6 w ++ 0#6 := by
      simp only [BitVec.and_append, BitVec.and_allOnes, BitVec.and_zero]

theorem trapForm_eq : op ++ 0#4 ++ trapvect8Of w = w &&& 0xF0FF#16 := by
  have hw : op ++ w.extractLsb' 8 4 ++ trapvect8Of w = w := by
    subst h
    simp only [opcodeOf, trapvect8Of, BitVec.extractLsb'_append_extractLsb'_eq_extractLsb']
    exact BitVec.extractLsb'_eq_self
  symm
  calc w &&& 0xF0FF#16
    _ = (op ++ w.extractLsb' 8 4 ++ trapvect8Of w) &&& (BitVec.allOnes 4 ++ 0#4 ++ BitVec.allOnes 8) :=
      congrArg (· &&& 0xF0FF#16) hw.symm
    _ = op ++ 0#4 ++ trapvect8Of w := by
      simp only [BitVec.and_append, BitVec.and_allOnes, BitVec.and_zero]

theorem reservedForm_eq : op ++ 0#12 = w &&& 0xF000#16 := by
  have hw : op ++ w.extractLsb' 0 12 = w := by
    subst h
    simp only [opcodeOf, BitVec.extractLsb'_append_extractLsb'_eq_extractLsb']
    exact BitVec.extractLsb'_eq_self
  symm
  calc w &&& 0xF000#16
    _ = (op ++ w.extractLsb' 0 12) &&& (BitVec.allOnes 4 ++ 0#12) := congrArg (· &&& 0xF000#16) hw.symm
    _ = op ++ 0#12 := by
      simp only [BitVec.and_append, BitVec.and_allOnes, BitVec.and_zero]

end

open Laws in
theorem DecodesTo.encode_eq {w : Word} {i : Instr} (hd : DecodesTo w i) : encode i = w &&& usedBits w := by
  cases hd with
  | br h =>
    rw [EncodeUsed.of_all (by simp [usedBits, h]), encode, off9Form_eq h]
  | ld h | st h | ldi h | sti h | lea h =>
    rw [EncodeUsed.of_all (by simp [usedBits, h]), encode, regAt11_bits, off9Form_eq h]
  | ldr h | str h =>
    rw [EncodeUsed.of_all (by simp [usedBits, h]), encode, regAt11_bits, regAt8_bits, off6Form_eq h]
  | addImm h hm | andImm h hm =>
    rw [EncodeUsed.of_all (by simp [usedBits, h, hm]), encode, regAt11_bits, regAt8_bits, imm5Form_eq h hm]
  | jsr h hl =>
    rw [EncodeUsed.of_all (by simp [usedBits, h, hl]), encode, jsrForm_eq h hl]
  | addReg h hm | andReg h hm =>
    have hu : usedBits w = 0xFFE7#16 := by simp [usedBits, h, hm]
    rw [hu, encode, regAt11_bits, regAt8_bits, regAt2_bits, registerForm_eq h hm]
  | jsrr h hl =>
    have hu : usedBits w = 0xF9C0#16 := by simp [usedBits, h, hl]
    rw [hu, encode, regAt8_bits, jsrrForm_eq h hl]
  | not h =>
    have hu : usedBits w = 0xFFC0#16 := by simp [usedBits, h]
    rw [hu, encode, regAt11_bits, regAt8_bits, notForm_eq h]
  | jmp h =>
    have hu : usedBits w = 0xF1C0#16 := by simp [usedBits, h]
    obtain ⟨-, -, henc⟩ := decodeJmp_spec (regAt8 w)
    rw [hu, henc, regAt8_bits, jmpForm_eq h]
  | trap h =>
    have hu : usedBits w = 0xF0FF#16 := by simp [usedBits, h]
    obtain ⟨-, -, henc⟩ := decodeTrap_spec (trapvect8Of w)
    rw [hu, henc, trapForm_eq h]
  | rti h | res h =>
    have hu : usedBits w = 0xF000#16 := by simp [usedBits, h]
    rw [hu, encode, reservedForm_eq h]

/-- Settles O2: each row of the decoder encodes to its word with the row's unused bits cleared. -/
theorem encodeOfDecodeClearsUnusedBits : Obligations.EncodeOfDecodeClearsUnusedBits :=
  fun w => (decodeWord_decodesTo w).encode_eq

end Sys2Proof
end

section
/-! PROOFS. The decoder on words given by their fields: ignored bits, TRAP words and the reserved opcodes (rules R76, R77, R83,
R170, R190, R191), and words written out in the test vectors. -/

namespace Sys2Proof.Machine

/-! ### Fields that words share -/

/-- Words that agree at [11:6] name the same registers at [11:9] and at [8:6]. -/
theorem regAt_eq_of_field11to6 {w w' : Word} (h : field w 11 6 = field w' 11 6) :
    regAt11 w = regAt11 w' ∧ regAt8 w = regAt8 w' := by
  rw [← regNo_field11to9, ← regNo_field11to9, ← regNo_field8to6, ← regNo_field8to6]
  unfold field at *
  exact ⟨congrArg regNo (by omega), congrArg regNo (by omega)⟩

theorem regAt8_eq_of_field {w w' : Word} (h : field w 8 6 = field w' 8 6) : regAt8 w = regAt8 w' := by
  rw [← regNo_field8to6, ← regNo_field8to6, h]

theorem regAt2_eq_of_field {w w' : Word} (h : field w 2 0 = field w' 2 0) : regAt2 w = regAt2 w' := by
  rw [field_eq_extractLsb' w rfl, field_eq_extractLsb' w' rfl] at h
  exact congrArg Reg.ofBits (BitVec.eq_of_toNat_eq h)

theorem trapvect8Of_eq_of_field {w : Word} {v : Byte} (h : field w 7 0 = v.toNat) : trapvect8Of w = v := by
  rw [field_eq_extractLsb' w rfl] at h
  exact BitVec.eq_of_toNat_eq h

theorem immediateMode_eq_false {w : Word} (h : field w 5 5 = 0) : immediateMode w = false := by
  rw [field_bit] at h
  exact Bool.toNat_eq_zero.mp h

/-- [15:11] = 01000 is opcode 0100 with the long flag off. -/
theorem jsrr_of_field15to11 {w : Word} (h : field w 15 11 = 8) : opcodeOf w = 0x4#4 ∧ longFlag w = false := by
  unfold field at h
  exact ⟨opcodeOf_eq_of_field (n := 4) (by unfold field; omega), longFlag_eq_false (by unfold field; omega)⟩

/-! ### Ignored bits (rule R76, decision D2) -/

/-- Settles O3: in each family the decoder reads only the fields that the two words share. -/
theorem unusedBitsDoNotChangeTheInstruction : Obligations.UnusedBitsDoNotChangeTheInstruction := by
  refine ⟨fun w w' hop h hm hm' hregs hreg => ?_, fun w w' h h' hregs => ?_, fun w w' h h' hreg => ?_,
    fun w w' h h' hreg => ?_, fun w w' h h' hv => ?_, fun w w' h h' => ?_, fun w w' h h' => ?_⟩
  · have hm := immediateMode_eq_false hm
    have hm' := immediateMode_eq_false hm'
    obtain ⟨h11, h8⟩ := regAt_eq_of_field11to6 hregs
    have h2 := regAt2_eq_of_field hreg
    obtain h | h := h <;> have h' := opcodeOf_eq_of_field (hop.symm.trans h) <;> have h := opcodeOf_eq_of_field h
    · rw [decodeWord_addReg h hm, decodeWord_addReg h' hm', h11, h8, h2]
    · rw [decodeWord_andReg h hm, decodeWord_andReg h' hm', h11, h8, h2]
  · obtain ⟨h11, h8⟩ := regAt_eq_of_field11to6 hregs
    rw [decodeWord_not (opcodeOf_eq_of_field h), decodeWord_not (opcodeOf_eq_of_field h'), h11, h8]
  · rw [decodeWord_jmp (opcodeOf_eq_of_field h), decodeWord_jmp (opcodeOf_eq_of_field h'), regAt8_eq_of_field hreg]
  · obtain ⟨h, hl⟩ := jsrr_of_field15to11 h
    obtain ⟨h', hl'⟩ := jsrr_of_field15to11 h'
    rw [decodeWord_jsrr h hl, decodeWord_jsrr h' hl', regAt8_eq_of_field hreg]
  · have hv : trapvect8Of w = trapvect8Of w' :=
      trapvect8Of_eq_of_field (hv.trans (field_eq_extractLsb' w' rfl))
    rw [decodeWord_trap (opcodeOf_eq_of_field h), decodeWord_trap (opcodeOf_eq_of_field h'), hv]
  · rw [decodeWord_rti (opcodeOf_eq_of_field h), decodeWord_rti (opcodeOf_eq_of_field h')]
  · rw [decodeWord_res (opcodeOf_eq_of_field h), decodeWord_res (opcodeOf_eq_of_field h')]

/-! ### TRAP words and the reserved opcodes -/

theorem decodeWord_of_trap_fields {w : Word} {v : Byte} (h : field w 15 12 = 15) (hv : field w 7 0 = v.toNat) :
    decodeWord w = decodeTrap v := by
  rw [decodeWord_trap (opcodeOf_eq_of_field h), trapvect8Of_eq_of_field hv]

/-- Settles O53: the low byte of a TRAP word is its vector. -/
theorem trapWordsNameTheirRoutine : Obligations.TrapWordsNameTheirRoutine := fun _ h =>
  ⟨decodeWord_of_trap_fields (v := vectGetc) h, decodeWord_of_trap_fields (v := vectOut) h,
    decodeWord_of_trap_fields (v := vectPuts) h, decodeWord_of_trap_fields (v := vectIn) h,
    decodeWord_of_trap_fields (v := vectPutsp) h, decodeWord_of_trap_fields (v := vectHalt) h⟩

/-- Settles O54: the opcode alone names RTI and RES, and each raises its stop. -/
theorem reservedOpcodesStop : Obligations.ReservedOpcodesStop :=
  ⟨fun _ h => decodeWord_rti (opcodeOf_eq_of_field h), fun _ h => decodeWord_res (opcodeOf_eq_of_field h),
    fun _ => ⟨rfl, rfl⟩⟩

/-- Settles O6: the decoder evaluated on each word. -/
theorem wordsOfTheSpecDecode : Obligations.WordsOfTheSpecDecode := by
  unfold Obligations.WordsOfTheSpecDecode
  decide

end Sys2Proof.Machine
end

section
/-! PROOFS. The step of a decoded instruction, the STOPPED block, and the slide of never-taken branches (rules R78, R80, R150,
R202, R231). -/

namespace Sys2Proof.Machine

theorem addWrap_one (a : Word) : addWrap a 0x0001#16 = BitVec.ofNat 16 (a.toNat + 1) := by
  rw [addWrap, BitVec.ofNat_add, BitVec.ofNat_toNat, BitVec.setWidth_eq]

/-- Settles O11: away from KBSR_ADDR the fetch answers the word at pc and moves pc on. -/
theorem stepRunsTheDecodedInstruction : Obligations.StepRunsTheDecodedInstruction := by
  rintro s i hr hpc rfl
  rw [step_of_fetch_ok hr (fetch_plain hpc), addWrap_one]
  rfl

/-- Settles O13: a RUNNING block faults only where it holds on input. -/
theorem stoppedBlockTakesNoStep : Obligations.StoppedBlockTakesNoStep := by
  refine fun s => ⟨fun hs hr => ?_, step_of_not_running⟩
  have h := step_usesPorts hr
  rw [hs] at h
  obtain ⟨hf, -⟩ := h
  cases hf

/-! ### Never-taken branches -/

/-- A word below 0x200 is a BR whose mask names no condition (rule R78). -/
theorem decodeWord_neverTaken {w : Word} (h : w.toNat < 0x200) : decodeWord w = .br 0b000#3 (pcOffset9Of w) := by
  have hop : opcodeOf w = 0x0#4 := opcodeOf_eq_of_field (n := 0) (by unfold field; omega)
  have hmask : field11to9 w = 0b000#3 := by
    refine BitVec.eq_of_toNat_eq ((field_eq_extractLsb' w (hi := 11) rfl).symm.trans ?_)
    unfold field
    rw [BitVec.toNat_ofNat]
    omega
  rw [decodeWord_br hop, hmask]

theorem Cond.not_meets_zero (c : Cond) : c.meets 0b000#3 = false := by
  cases c <;> rfl

theorem exec_neverTaken (off : BitVec 9) (s : State) : exec (.br 0b000#3 off) s = .next s := by
  show Host.Outcome.next _ = _
  rw [s.cond.not_meets_zero, if_neg Bool.false_ne_true]

theorem step_neverTaken {s : State} (hr : s.run = .running) (hpc : s.pc ≠ 0xFE00#16)
    (hw : (s.mem.read s.pc).toNat < 0x200) : step s = .next { s with pc := s.pc + 1#16 } := by
  rw [stepRunsTheDecodedInstruction s _ hr hpc (decodeWord_neverTaken hw), exec_neverTaken, ← addWrap_one]
  rfl

/-- Settles O22, by induction on the number of branches from any pc: the first one leaves the others to the rest of the run. -/
theorem neverTakenBranchesSlide : Obligations.NeverTakenBranchesSlide := by
  intro n
  induction n with
  | zero =>
    intro s _ _
    show { s with pc := s.pc + 0#16 } = s
    rw [BitVec.add_zero]
  | succ n ih =>
    intro s hr hwords
    have hadd (k : Nat) : s.pc + BitVec.ofNat 16 (k + 1) = s.pc + 1#16 + BitVec.ofNat 16 k := by
      rw [Nat.add_comm, BitVec.ofNat_add, BitVec.add_assoc]
    obtain ⟨hpc, hw⟩ := hwords 0 n.succ_pos
    rw [BitVec.add_zero] at hpc hw
    refine ⟨_, step_neverTaken hr hpc hw, ?_⟩
    rw [hadd n]
    exact ih { s with pc := s.pc + 1#16 } hr fun k hk => hadd k ▸ hwords (k + 1) (Nat.succ_lt_succ hk)

end Sys2Proof.Machine
end

section
/-! PROOFS. The operate instructions ADD, AND and NOT: their words by mode, and the result, its condition code and the frame
(rules R71, R73, R100-R106). -/

namespace Sys2Proof.Machine

/-! ### The operands of a word in each mode (rules R71, R73) -/

theorem immediateMode_eq_true {w : Word} (h : field w 5 5 = 1) : immediateMode w = true := by
  rw [field_bit] at h
  exact Bool.toNat_eq_one.mp h

theorem regNo_field2to0 (w : Word) : regNo (field w 2 0) = regAt2 w := by
  rw [field_eq_extractLsb' w rfl]
  exact regNo_toNat _

theorem ofNat_field4to0 (w : Word) : BitVec.ofNat 5 (field w 4 0) = imm5Of w := ofNat_field_eq_extractLsb' w rfl

/-! ### The bits of a sign-extended imm5 (rule R12) -/

/-- The bits of imm5, bit 4 standing for every bit above it. -/
theorem sext_imm5_getLsbD (imm5 : BitVec 5) {k : Nat} (hk : k < 16) :
    (sext imm5).getLsbD k = imm5.getLsbD (min k 4) := by
  obtain hlt | hge := Nat.lt_or_ge k 5
  · rw [sext_getLsbD_of_lt imm5 (by decide) hlt, Nat.min_eq_left (Nat.le_of_lt_succ hlt)]
  · rw [sext_getLsbD_of_le imm5 hge hk, Nat.min_eq_right (Nat.le_of_succ_le hge)]

/-! ### ADD (rules R100, R101) -/

/-- Settles O29: the result written is the wrapping sum. -/
theorem addRegisterMode : Obligations.AddRegisterMode := by
  refine ⟨fun w h hm => ?_, fun dr sr1 sr2 s =>
    ⟨_, rfl, ?_, writeResult_condIs dr _ s, writeResult_resultFrame dr _ s⟩⟩
  · rw [regNo_field11to9, regNo_field8to6, regNo_field2to0]
    exact decodeWord_addReg (opcodeOf_eq_of_field h) (immediateMode_eq_false hm)
  · rw [State.reg_writeResult_same]
    exact addWrap_toNat _ _

/-- Settles O30: the sign-extended operand adds its signed value, as a displacement does. -/
theorem addImmediateMode : Obligations.AddImmediateMode := by
  refine ⟨fun w h hm => ?_, fun dr sr1 imm5 s =>
    ⟨_, rfl, ?_, writeResult_condIs dr _ s, writeResult_resultFrame dr _ s⟩⟩
  · rw [regNo_field11to9, regNo_field8to6, ofNat_field4to0]
    exact decodeWord_addImm (opcodeOf_eq_of_field h) (immediateMode_eq_true hm)
  · rw [State.reg_writeResult_same]
    exact addWrap_sext_toNat _ imm5 (by decide)

/-! ### AND (rules R103, R104) -/

/-- Settles O31: the result written is the AND, bit by bit. -/
theorem andRegisterMode : Obligations.AndRegisterMode := by
  refine ⟨fun w h hm => ?_, fun dr sr1 sr2 s =>
    ⟨_, rfl, fun k _ => ?_, writeResult_condIs dr _ s, writeResult_resultFrame dr _ s⟩⟩
  · rw [regNo_field11to9, regNo_field8to6, regNo_field2to0]
    exact decodeWord_andReg (opcodeOf_eq_of_field h) (immediateMode_eq_false hm)
  · rw [State.reg_writeResult_same]
    exact BitVec.getLsbD_and

/-- Settles O32: above bit 4 the second operand repeats the sign of imm5. -/
theorem andImmediateMode : Obligations.AndImmediateMode := by
  refine ⟨fun w h hm => ?_, fun dr sr1 imm5 s =>
    ⟨_, rfl, fun k hk => ?_, writeResult_condIs dr _ s, writeResult_resultFrame dr _ s⟩⟩
  · rw [regNo_field11to9, regNo_field8to6, ofNat_field4to0]
    exact decodeWord_andImm (opcodeOf_eq_of_field h) (immediateMode_eq_true hm)
  · rw [State.reg_writeResult_same, BitVec.getLsbD_and, sext_imm5_getLsbD imm5 hk]

/-! ### NOT (rule R106) -/

/-- Settles O33: the opcode alone names NOT, and a complement is what is missing to 65535. -/
theorem notComplements : Obligations.NotComplements := by
  refine ⟨fun w h => ?_, fun dr sr s =>
    ⟨_, rfl, ?_, writeResult_condIs dr _ s, writeResult_resultFrame dr _ s⟩⟩
  · rw [regNo_field11to9, regNo_field8to6]
    exact decodeWord_not (opcodeOf_eq_of_field h)
  · rw [State.reg_writeResult_same]
    exact BitVec.toNat_not

end Sys2Proof.Machine
end

section
/-! PROOFS. Data movement: LEA, the stores, and the loads and stores through a pointer (rules R122-R134). -/

namespace Sys2Proof.Machine

/-! ### The operands of a word (rules R14, R71) -/

theorem ofNat_field8to0 (w : Word) : BitVec.ofNat 9 (field w 8 0) = pcOffset9Of w := ofNat_field_eq_extractLsb' w rfl

theorem ofNat_field5to0 (w : Word) : BitVec.ofNat 6 (field w 5 0) = offset6Of w := ofNat_field_eq_extractLsb' w rfl

/-! ### LEA (rule R126) -/

/-- Settles O36: the result written is the PC-relative address, a displacement from pc. -/
theorem leaLoadsTheAddress : Obligations.LeaLoadsTheAddress := by
  refine ⟨fun w h => ?_, fun dr off9 s => ⟨_, rfl, ?_, writeResult_condIs dr _ s, writeResult_resultFrame dr _ s⟩⟩
  · rw [regNo_field11to9, ofNat_field8to0]
    exact decodeWord_lea (opcodeOf_eq_of_field h)
  · rw [State.reg_writeResult_same]
    exact addWrap_sext_toNat _ off9 (by decide)

/-! ### Stores (rules R47, R130, R131, R134) -/

/-- MemWrite, at any address, is a store of its word. -/
theorem memWrite_storeResult {s : State} (h : s.mem.wf = true) (a v : Word) :
    StoreResult (.next (s.memWrite a v)) a v s :=
  ⟨_, rfl, Memory.read_write_same a v h, fun _ hne => Memory.read_write_ne s.mem v hne, rfl⟩

/-- Settles O37: both stores are a MemWrite at their address, which never polls. -/
theorem stAndStrStoreTheirWord : Obligations.StAndStrStoreTheirWord := by
  refine ⟨fun w h => ?_, fun w h => ?_, fun sr baseR off9 off6 s hinv =>
    ⟨memWrite_storeResult hinv.mem_wf _ _, memWrite_storeResult hinv.mem_wf _ _⟩⟩
  · rw [regNo_field11to9, ofNat_field8to0]
    exact decodeWord_st (opcodeOf_eq_of_field h)
  · rw [regNo_field11to9, regNo_field8to6, ofNat_field5to0]
    exact decodeWord_str (opcodeOf_eq_of_field h)

/-! ### Through a pointer (rules R46, R122, R123, R132, R133) -/

/-- What an instruction with outcome `o` that reads a pointer at `p` does from `s`: `R a u` is the access at the address `a`
that the pointer names, from the state `u` that the read of the pointer leaves. -/
def ThroughPointer (o : Host.Outcome State Fault Refusal) (p : Word) (R : Word → State → Prop) (s : State) : Prop :=
  (p ≠ 0xFE00#16 → R (s.mem.read p) s) ∧
  (p = 0xFE00#16 → ∀ b rest, s.input = .byte b :: rest →
    ∃ u, PolledBy b s u ∧ u = { s with mem := u.mem, input := rest, consumed := s.consumed + 1 } ∧
      R (u.mem.read 0xFE00#16) u) ∧
  (p = 0xFE00#16 → ∀ rest, s.input = .eof :: rest → o = .next (s.inputEnded rest)) ∧
  (p = 0xFE00#16 → s.input = [] → o = .fault .awaitingInput)

/-- The pointer is read by MemRead: the access follows a read that completes, and a stop or a hold of the read is that of
the instruction. -/
theorem throughPointer_of_memRead {o : Host.Outcome State Fault Refusal} {p : Word} {R : Word → State → Prop} {s : State}
    (hwf : s.mem.wf = true) (hok : ∀ a u, memRead p s = .ok a u → R a u)
    (hstop : ∀ u, memRead p s = .stop u → o = .next u) (hstuck : ∀ f, memRead p s = .stuck f → o = .fault f) :
    ThroughPointer o p R s := by
  refine ⟨fun hne => hok _ s (memRead_plain hne), ?_, ?_, ?_⟩ <;> rintro rfl
  · intro b rest hi
    exact ⟨s.polled b rest, State.polled_polledBy hwf, s.polled_eq b rest, hok _ _ (memRead_kbsr_byte hi)⟩
  · exact fun rest hi => hstop _ (memRead_kbsr_eof hi)
  · exact fun hi => hstuck _ (memRead_kbsr_nil hi)

theorem exec_ldi_eq (dr : Reg) (off : BitVec 9) (s : State) :
    exec (.ldi dr off) s = ((memRead (s.pcRel9 off) s).andThen memRead).finish fun v t => t.writeResult dr v := rfl

theorem exec_sti_eq (sr : Reg) (off : BitVec 9) (s : State) :
    exec (.sti sr off) s = (memRead (s.pcRel9 off) s).finish fun a t => t.memWrite a (t.reg sr) := rfl

/-- Settles O35: from the state that the pointer's read leaves, LDI is a load of the word at the pointer. -/
theorem ldiLoadsThroughItsPointer : Obligations.LdiLoadsThroughItsPointer := by
  intro dr off9 s hinv
  refine throughPointer_of_memRead (R := LoadResult (exec (.ldi dr off9) s) dr) hinv.mem_wf
    (fun a u hu => ?_) (fun u hu => ?_) (fun f hu => ?_) <;> rw [exec_ldi_eq, hu]
  · obtain ⟨-, -, -, -, -, -, -, hwf, -⟩ := memRead_ok_frame hu
    exact memRead_loadResult dr a (hwf hinv.mem_wf)
  · rfl
  · rfl

/-- Settles O38: the pointer's read leaves SR and a canonical memory, into which STI writes SR. -/
theorem stiStoresThroughItsPointer : Obligations.StiStoresThroughItsPointer := by
  intro sr off9 s hinv
  refine throughPointer_of_memRead (R := fun a u => StoreResult (exec (.sti sr off9) s) a (s.reg sr) u) hinv.mem_wf
    (fun a u hu => ?_) (fun u hu => ?_) (fun f hu => ?_) <;> rw [exec_sti_eq, hu]
  · obtain ⟨hregs, -, -, -, -, -, -, hwf, -⟩ := memRead_ok_frame hu
    rw [Flow.finish_ok, State.reg, State.reg, hregs]
    exact memWrite_storeResult (hwf hinv.mem_wf) a _
  · rfl
  · rfl

end Sys2Proof.Machine
end

section
/-! PROOFS. Control transfer: the mask of BR, the link of JSR and JSRR, and the target of each transfer (rules
R150-R157). -/

namespace Sys2Proof.Machine

/-! ### The operands of a word (rules R71, R72) -/

theorem longFlag_eq_true {w : Word} (h : field w 11 11 = 1) : longFlag w = true := by
  rw [field_bit] at h
  exact Bool.toNat_eq_one.mp h

theorem ofNat_field11to9 (w : Word) : BitVec.ofNat 3 (field w 11 9) = field11to9 w := ofNat_field_eq_extractLsb' w rfl

theorem ofNat_field10to0 (w : Word) : BitVec.ofNat 11 (field w 10 0) = pcOffset11Of w :=
  ofNat_field_eq_extractLsb' w rfl

/-- Only the index 7 selects R7. -/
theorem Reg.ofBits_eq_r7_iff (b : BitVec 3) : Reg.ofBits b = .r7 ↔ b.toNat = 7 := by
  revert b; decide

theorem regAt8_eq_r7_iff (w : Word) : regAt8 w = .r7 ↔ field w 8 6 = 7 := by
  rw [field_eq_extractLsb' w rfl]
  exact Reg.ofBits_eq_r7_iff _

/-! ### BR (rules R150, R151) -/

@[simp] theorem Cond.none_meets (mask : BitVec 3) : Cond.none.meets mask = false := by revert mask; decide
@[simp] theorem Cond.n_meets (mask : BitVec 3) : Cond.n.meets mask = mask.getLsbD 2 := by revert mask; decide
@[simp] theorem Cond.z_meets (mask : BitVec 3) : Cond.z.meets mask = mask.getLsbD 1 := by revert mask; decide
@[simp] theorem Cond.p_meets (mask : BitVec 3) : Cond.p.meets mask = mask.getLsbD 0 := by revert mask; decide

/-- BR sets pc and nothing else; a branch not taken sets it to what it was. -/
theorem exec_br_eq (nzp : BitVec 3) (off : BitVec 9) (s : State) :
    exec (.br nzp off) s = .next (s.setPc (if s.cond.meets nzp then s.pcRel9 off else s.pc)) := by
  show execBr nzp off s = _
  unfold execBr
  split <;> rfl

/-- Settles O41: the test of the mask selects the mask's bit for each code, and the target is a displacement from pc. -/
theorem branchIsTakenByItsMask : Obligations.BranchIsTakenByItsMask := by
  refine ⟨fun w h => ?_, fun nzp off9 s => ⟨_, exec_br_eq nzp off9 s, rfl, ?_⟩⟩
  · rw [ofNat_field11to9, ofNat_field8to0]
    exact decodeWord_br (opcodeOf_eq_of_field h)
  · have htarget : ((s.pcRel9 off9).toNat : Int) = ((s.pc.toNat : Int) + off9.toInt) % 65536 :=
      addWrap_sext_toNat s.pc off9 (by decide)
    rw [State.setPc_pc, apply_ite BitVec.toNat, Nat.cast_ite, htarget]
    refine if_congr ?_ rfl rfl
    cases s.cond with
    | none => rw [Cond.none_meets]
    | n => rw [Cond.n_meets]
    | z => rw [Cond.z_meets]
    | p => rw [Cond.p_meets]

/-! ### JMP and RET (rules R153, R154) -/

/-- Settles O42: the decoder names JMP with BaseR = 7 RET, and both are a jump to a register. -/
theorem jumpGoesToTheBaseRegister : Obligations.JumpGoesToTheBaseRegister := by
  refine ⟨fun w h => ?_, rfl, fun _ _ => rfl, fun _ => rfl⟩
  rw [decodeWord_jmp (opcodeOf_eq_of_field h), regNo_field8to6]
  exact ⟨fun hne => decodeJmp_of_ne (mt (regAt8_eq_r7_iff w).mp hne),
    fun h7 => if_pos ((regAt8_eq_r7_iff w).mpr h7)⟩

/-! ### The link (rules R155, R156, R158) -/

@[simp] theorem State.reg_link_r7 (s : State) : s.link.reg .r7 = s.pc := s.reg_setReg_same .r7 s.pc

@[simp] theorem State.reg_link_ne (s : State) {r : Reg} (h : r ≠ .r7) : s.link.reg r = s.reg r :=
  s.reg_setReg_ne s.pc h

/-- Settles O43: the link, then a transfer by a displacement from the same pc. -/
theorem jsrLinksAndBranches : Obligations.JsrLinksAndBranches := by
  refine ⟨fun w h hl => ?_, fun off11 s =>
    ⟨_, rfl, s.reg_link_r7, fun _ hr => s.reg_link_ne hr, addWrap_sext_toNat s.pc off11 (by decide), rfl⟩⟩
  rw [ofNat_field10to0]
  exact decodeWord_jsr (opcodeOf_eq_of_field h) (longFlag_eq_true hl)

/-! ### JSRR (rules R156, R157, decision D3) -/

theorem State.jsrrTarget_writeR7First {s : State} (ho : s.params.jsrrOrder = .writeR7First) (baseR : Reg) :
    s.jsrrTarget baseR = s.link.reg baseR := by
  simp only [State.jsrrTarget, ho]

theorem State.jsrrTarget_readBaseFirst {s : State} (ho : s.params.jsrrOrder = .readBaseFirst) (baseR : Reg) :
    s.jsrrTarget baseR = s.reg baseR := by
  simp only [State.jsrrTarget, ho]

/-- The order matters for R7 only: the link writes no other register. -/
theorem State.jsrrTarget_of_ne (s : State) {baseR : Reg} (h : baseR ≠ .r7) : s.jsrrTarget baseR = s.reg baseR := by
  cases ho : s.params.jsrrOrder with
  | writeR7First => rw [State.jsrrTarget_writeR7First ho, s.reg_link_ne h]
  | readBaseFirst => exact State.jsrrTarget_readBaseFirst ho baseR

/-- Settles O44: the link, then a transfer to the target, which for R7 depends on the order. -/
theorem jsrrLinksAndJumps : Obligations.JsrrLinksAndJumps := by
  refine fun baseR s => ⟨_, rfl, s.reg_link_r7, fun _ hr => s.reg_link_ne hr, rfl, s.jsrrTarget_of_ne, ?_, ?_⟩
  · rintro rfl ho
    exact (State.jsrrTarget_writeR7First ho .r7).trans s.reg_link_r7
  · rintro rfl ho
    exact State.jsrrTarget_readBaseFirst ho .r7

end Sys2Proof.Machine
end

section
/-! PROOFS. The routines of TRAP: each is a list of output requests, a byte taken from the host, or both in order, and the
vector selects the routine (rules R170-R182). -/

namespace Sys2Proof.Machine

/-! ### The routines as lists of requests (rules R172, R174, R178, R180) -/

/-- Requests, then `k` once the host has accepted them all. -/
theorem emitAll_outputResult (es : List ConsoleEvent) (k : State → State) (s : State) :
    OutputResult ((emitAll es s).flow.finish fun _ t => k t) es k s :=
  ⟨fun h => by rw [emitAll_flow_accepted h, Flow.finish_ok],
    fun n hb hn => by rw [emitAll_flow_failed hb hn, Flow.finish_stop]⟩

theorem consoleOut_eq_emitAll (b : Byte) (s : State) : consoleOut b s = emitAll [.byte b] s :=
  (emitAll_singleton (.byte b) s).symm

theorem consoleFlush_eq_emitAll : consoleFlush = emitAll [.flush] :=
  funext fun s => (emitAll_singleton .flush s).symm

theorem consoleOutAll_eq_emitAll (bs : List Byte) (s : State) : consoleOutAll bs s = emitAll (bs.map .byte) s := by
  induction bs generalizing s with
  | nil => rfl
  | cons b bs ih => exact congrArg (emit (.byte b) s).andThen (funext ih)

theorem exec_out_eq (s : State) :
    exec .out s = (emitAll [.byte (lowByte (s.reg .r0)), .flush] s).flow.finish fun _ t => id t := by
  show Host.Outcome.next (((consoleOut (lowByte (s.reg .r0)) s).andThen consoleFlush).state id) = _
  rw [Written.next_state, consoleOut_eq_emitAll, consoleFlush_eq_emitAll, ← emitAll_append, List.singleton_append]

theorem exec_halt_eq (s : State) :
    exec .halt s = (emitAll (s.params.haltNotice.map .byte ++ [.flush]) s).flow.finish
      fun _ t => t.raiseStop .halt := by
  show Host.Outcome.next (((consoleOutAll s.params.haltNotice s).andThen consoleFlush).state _) = _
  rw [Written.next_state, consoleOutAll_eq_emitAll, consoleFlush_eq_emitAll, ← emitAll_append]

/-- What IN does after its prompt. -/
def inAnswer (s : State) : Flow Unit :=
  (consoleIn s).andThen fun b t =>
    (emitAll [.byte b] t).flow.andThen fun _ u => (emitAll [.flush] (u.writeResult .r0 (zext b))).flow

theorem exec_inp_eq (s : State) :
    exec .inp s = ((emitAll (s.params.inPrompt.map .byte) s).flow.andThen fun _ t => inAnswer t).finish fun _ t => t := by
  show inRoutine s = _
  simp only [inRoutine, inAnswer, consoleOutAll_eq_emitAll, consoleOut_eq_emitAll, consoleFlush_eq_emitAll]

/-! ### Strings (rules R175, R176, R179) -/

/-- Settles O47: the walk away from KBSR_ADDR is one list of requests. -/
theorem putsWritesTheString : Obligations.PutsWritesTheString := by
  intro s ws h
  rw [exec_puts_eq, stringOut_stringAt h]
  exact emitAll_outputResult _ id s

/-- Settles O48: the walk of PUTS with the two characters of each word. -/
theorem putspWritesThePackedString : Obligations.PutspWritesThePackedString := by
  intro s ws h
  rw [exec_putsp_eq, stringOut_stringAt h]
  exact emitAll_outputResult _ id s

/-! ### IN (rule R178) -/

theorem State.accepts.of_budget {s : State} {n m : Nat} (h : s.outputBudget = some n) (hm : m ≤ n) : s.accepts m := by
  intro k hk
  rw [h] at hk
  exact hm.trans_eq (Option.some.inj hk)

/-- `s` after a ConsoleIn that has taken a byte and left `rest` (rule R8). -/
def State.took (s : State) (rest : List ConsoleAnswer) : State :=
  { s with input := rest, consumed := s.consumed + 1 }

/-- A zero-extended byte sets Z or P (rule R178). -/
theorem condOf_zext (b : Byte) : condOf (zext b) = if b.toNat = 0 then .z else .p := by
  by_cases hb : b = 0x00#8
  · rw [hb]
    rfl
  · rw [if_neg (mt (byte_eq_zero_iff b).mpr hb), condOf_pos (mt (zext_eq_zero_iff b).mp hb) (zext_msb b)]

section
variable {es : List ConsoleEvent} {s : State} {b : Byte} {rest : List ConsoleAnswer} (hin : s.input = .byte b :: rest)
include hin

/-- After an accepted prompt and a byte taken, the echo is a request after the prompt's. -/
theorem inAnswer_wrote_byte (hacc : s.accepts es.length) :
    inAnswer (s.wrote es) = (emitAll (es ++ [.byte b]) (s.took rest)).flow.andThen fun _ t =>
      (emitAll [.flush] (t.writeResult .r0 (zext b))).flow := by
  have htook : (s.took rest).accepts es.length := hacc
  rw [inAnswer, consoleIn_byte (s := s.wrote es) hin, Flow.andThen_ok, ← emitAll_wrote htook]
  rfl

/-- With the echo accepted too, the flush is a request after both, from the state with R0 and cond written. -/
theorem inAnswer_wrote_byte_echoed (hacc : s.accepts (es.length + 1)) :
    inAnswer (s.wrote es) =
      (emitAll (es ++ [.byte b] ++ [.flush]) ((s.took rest).writeResult .r0 (zext b))).flow := by
  have htook : (s.took rest).accepts (es ++ [ConsoleEvent.byte b]).length := by
    rw [List.length_append]
    exact hacc
  have hresult : ((s.took rest).writeResult .r0 (zext b)).accepts (es ++ [ConsoleEvent.byte b]).length := htook
  rw [inAnswer_wrote_byte hin (hacc.mono (Nat.le_succ _)), emitAll_flow_accepted htook, Flow.andThen_ok,
    ← emitAll_wrote hresult]
  rfl

/-- The host fails the echo: no register has been written. -/
theorem inAnswer_wrote_echoFails (hb : s.outputBudget = some es.length) :
    inAnswer (s.wrote es) = .stop ((s.took rest).failedAfter es) := by
  have htook : (s.took rest).outputBudget = some es.length := hb
  rw [inAnswer_wrote_byte hin (.of_budget hb le_rfl), emitAll_flow_failed htook (by simp), Flow.andThen_stop,
    List.take_left]

/-- The host fails the flush: R0 and cond have been written. -/
theorem inAnswer_wrote_flushFails (hb : s.outputBudget = some (es.length + 1)) :
    inAnswer (s.wrote es) = .stop (((s.took rest).writeResult .r0 (zext b)).failedAfter (es ++ [.byte b])) := by
  have hresult : ((s.took rest).writeResult .r0 (zext b)).outputBudget = some (es.length + 1) := hb
  rw [inAnswer_wrote_byte_echoed hin (.of_budget hb le_rfl), emitAll_flow_failed hresult (by simp),
    List.take_left' (by simp)]

/-- The host accepts all three. -/
theorem inAnswer_wrote_accepted (hacc : s.accepts (es.length + 2)) :
    inAnswer (s.wrote es) = .ok () (((s.took rest).writeResult .r0 (zext b)).wrote (es ++ [.byte b, .flush])) := by
  have hresult : ((s.took rest).writeResult .r0 (zext b)).accepts (es ++ [ConsoleEvent.byte b, .flush]).length := by
    rw [List.length_append]
    exact hacc
  rw [inAnswer_wrote_byte_echoed hin (hacc.mono (Nat.le_succ _)), List.append_assoc, List.singleton_append,
    emitAll_flow_accepted hresult]

end

/-- Settles O50: IN is its prompt and then `inAnswer`, by what the host answers to each. -/
theorem inPromptsReadsAndEchoes : Obligations.InPromptsReadsAndEchoes := by
  intro s prompt hprompt
  have hprompted (h : s.accepts prompt.length) : exec .inp s = (inAnswer (s.wrote prompt)).finish fun _ t => t := by
    rw [exec_inp_eq, ← hprompt, emitAll_flow_accepted h, Flow.andThen_ok]
  refine ⟨fun b rest hin => ?byte, fun n hb hn => ?promptFails, fun rest hin h => ?ended, fun hin h => ?waits⟩
  case byte =>
    refine ⟨(s.took rest).writeResult .r0 (zext b), rfl, ?_, fun r hr => State.reg_writeResult_ne _ _ hr,
      condOf_zext b, fun h => ?_, fun hb => ?_, fun hb => ?_⟩
    · rw [State.reg_writeResult_same, zext_toNat]
    · rw [hprompted (h.mono (Nat.le_add_right _ 2)), inAnswer_wrote_accepted hin h, Flow.finish_ok]
    · rw [hprompted (.of_budget hb (Nat.le_succ _)), inAnswer_wrote_flushFails hin hb, Flow.finish_stop]
    · rw [hprompted (.of_budget hb le_rfl), inAnswer_wrote_echoFails hin hb, Flow.finish_stop]
      rfl
  case promptFails =>
    rw [exec_inp_eq, ← hprompt, emitAll_flow_failed hb hn, Flow.andThen_stop, Flow.finish_stop]
  case ended =>
    rw [hprompted h, inAnswer, consoleIn_eof (s := s.wrote prompt) hin, Flow.andThen_stop, Flow.finish_stop]
    rfl
  case waits =>
    rw [hprompted h, inAnswer, consoleIn_nil (s := s.wrote prompt) hin, Flow.andThen_stuck, Flow.finish_stuck]

/-! ### GETC, OUT and HALT (rules R173, R174, R180) -/

theorem exec_getc_eq (s : State) : exec .getc s = (consoleIn s).finish fun b t => t.setReg .r0 (zext b) := rfl

/-- Settles O45: GETC is a ConsoleIn and the write of R0. -/
theorem getcReadsAByte : Obligations.GetcReadsAByte := by
  refine fun s => ⟨fun b rest hin => ?_, fun rest hin => ?_, fun hin => ?_⟩ <;> rw [exec_getc_eq]
  · rw [consoleIn_byte hin, Flow.finish_ok]
    refine ⟨_, rfl, ?_, fun r hr => State.reg_setReg_ne _ _ hr, rfl⟩
    rw [State.reg_setReg_same, zext_toNat]
  · rw [consoleIn_eof hin, Flow.finish_stop]
    rfl
  · rw [consoleIn_nil hin, Flow.finish_stuck]

/-- Settles O46: OUT is two requests. -/
theorem outWritesTheLowByte : Obligations.OutWritesTheLowByte := by
  intro s
  rw [exec_out_eq, lowByte_eq_ofNat]
  exact emitAll_outputResult _ id s

/-- Settles O51: HALT is the requests of its notice, a flush, and the stop. -/
theorem haltNotifiesAndStops : Obligations.HaltNotifiesAndStops := by
  intro s
  rw [exec_halt_eq]
  exact emitAll_outputResult _ (fun t => t.raiseStop .halt) s

/-! ### The vector (rules R170, R181, decision D23) -/

theorem knownVector_eq_false {v : Byte} (h : v.toNat < 0x20 ∨ 0x25 < v.toNat) : knownVector v = false := by
  simp only [knownVector, vectGetc, vectOut, vectPuts, vectIn, vectPutsp, vectHalt, Bool.or_eq_false_iff,
    beq_eq_false_iff_ne, ne_eq, ← BitVec.toNat_inj, BitVec.toNat_ofNat]
  omega

theorem execTrap_of_not_known {v : Byte} (h : knownVector v = false) : execTrap v = unknownTrap v := by
  simp only [knownVector, Bool.or_eq_false_iff, beq_eq_false_iff_ne] at h
  obtain ⟨⟨⟨⟨⟨hgetc, hout⟩, hputs⟩, hin⟩, hputsp⟩, hhalt⟩ := h
  funext s
  rw [execTrap, if_neg hgetc, if_neg hout, if_neg hputs, if_neg hin, if_neg hputsp, if_neg hhalt]

/-- Settles O52: TRAP is the routine that its vector selects. -/
theorem trapRunsTheRoutineOfItsVector : Obligations.TrapRunsTheRoutineOfItsVector := by
  refine fun s => ⟨rfl, rfl, rfl, rfl, rfl, rfl, fun v hv => ?_⟩
  show execTrap v s = _
  rw [execTrap_of_not_known (knownVector_eq_false hv)]
  rfl

end Sys2Proof.Machine
end

section
/-! PROOFS. The stops: each is raised by an action that the instruction is allowed, and the invariant ties its exit status
to its cause (rules R201, R203). -/

namespace Sys2Proof.Machine

/-! ### The exit status (rule R203) -/

/-- The status of a stop in a state that meets the invariant. -/
theorem State.Inv.status_eq {s : State} (h : s.Inv) {c : StopCause} {n : Nat} (hr : s.run = .stopped c n) :
    n = exitStatus s.params c := by
  have hlegal := h.run_legal
  rw [hr, Run.legal, Bool.and_eq_true, beq_iff_eq] at hlegal
  exact hlegal.2

/-- Settles O20: the next state meets the invariant too, under the same parameters. -/
theorem stopsHaveTheirExitStatus : Obligations.StopsHaveTheirExitStatus := by
  intro s t c n hs ht hr
  obtain ⟨-, -, -, -, -, hparams⟩ := stepUsesThePortsInOrder s t ht
  have hn : n = exitStatus s.params c := hparams ▸ (stepKeepsTheInvariant s t hs ht).status_eq hr
  cases c with
  | ioFailure kind => exact ⟨hn ▸ hs.status_ne_zero, fun _ _ => hn, fun hne => absurd rfl (hne kind)⟩
  | halt | unknownTrap | reservedOpcode => exact ⟨hn ▸ Nat.one_ne_zero, nofun, fun _ => hn⟩

/-! ### The raisers (rule R201) -/

/-- The actions that can raise a stop: the stop itself, or a request that the host answers with its end or a failure. -/
def StopCause.RaisedBy (c : StopCause) : Action → Prop
  | .stop c' => c' = c
  | .poll | .take => c = .ioFailure .inputEnd
  | .output => c = .ioFailure .outputFail
  | .reg _ | .cond | .pc | .store => False

/-- An effect that ends STOPPED began so, or raised the stop. -/
theorem Effect.stopped {k : Action} {s t : State} {c : StopCause} {n : Nat} (h : Effect k s t)
    (hr : t.run = .stopped c n) : s.run = .stopped c n ∨ c.RaisedBy k := by
  cases h with
  | setReg | setcc | setPc | memWrite | takeByte | accepted => exact .inl hr
  | pollByte b =>
    rw [State.pollByte_run] at hr
    exact .inl hr
  | pollEnd | takeEnd | outputFail | raiseStop =>
    obtain ⟨rfl, -⟩ := Run.stopped.inj hr
    exact .inr rfl

theorem Does.stopped {P : Action → Prop} {s t : State} {c : StopCause} {n : Nat} (h : Does P s t)
    (hr : t.run = .stopped c n) : s.run = .stopped c n ∨ ∃ k, P k ∧ c.RaisedBy k := by
  induction h with
  | refl => exact .inl hr
  | tail _ hlast ih =>
    obtain ⟨k, hk, he⟩ := hlast
    obtain hu | hc := he.stopped hr
    · exact ih hu
    · exact .inr ⟨k, hk, hc⟩

/-- A vector that names no routine is below or above the six. -/
theorem toNat_of_knownVector_eq_false {v : Byte} (h : knownVector v = false) : v.toNat < 0x20 ∨ 0x25 < v.toNat := by
  simp only [knownVector, vectGetc, vectOut, vectPuts, vectIn, vectPutsp, vectHalt, Bool.or_eq_false_iff,
    beq_eq_false_iff_ne, ne_eq, ← BitVec.toNat_inj, BitVec.toNat_ofNat] at h
  omega

/-- The instructions that raise a stop by what they are. -/
theorem raises_cases {i : Instr} {c : StopCause} (h : i.raises = some c) :
    (c = .halt ∧ (i = .halt ∨ i = .trap 0x25#8)) ∨
    (∃ v, c = .unknownTrap v ∧ i = .trap v ∧ (v.toNat < 0x20 ∨ 0x25 < v.toNat)) ∨
    (c = .reservedOpcode 0x8#4 ∧ i = .rti) ∨ (c = .reservedOpcode 0xD#4 ∧ i = .res) := by
  cases i with
  | halt => exact .inl ⟨(Option.some.inj h).symm, .inl rfl⟩
  | rti => exact .inr (.inr (.inl ⟨(Option.some.inj h).symm, rfl⟩))
  | res => exact .inr (.inr (.inr ⟨(Option.some.inj h).symm, rfl⟩))
  | trap v =>
    simp only [Instr.raises] at h
    split_ifs at h with hhalt hknown <;> obtain rfl := Option.some.inj h
    · exact .inl ⟨rfl, .inr (congrArg Instr.trap hhalt)⟩
    · exact .inr (.inl ⟨v, rfl, rfl, toNat_of_knownVector_eq_false (Bool.eq_false_iff.mpr hknown)⟩)
  | _ => nomatch h

/-- Settles O21: the stop was raised by an action that the instruction is allowed. -/
theorem stopsHaveTheirRaisers : Obligations.StopsHaveTheirRaisers := by
  intro i s t c n hs ht hr
  obtain hstopped | ⟨k, hk, hc⟩ := (exec_does i s t ht).stopped hr
  · rw [hs] at hstopped
    nomatch hstopped
  cases k with
  | stop c' =>
    obtain rfl := hc
    obtain hhalt | hunknown | hrti | hres := raises_cases hk
    · exact .inl hhalt
    · exact .inr (.inl hunknown)
    · exact .inr (.inr (.inl hrti))
    · exact .inr (.inr (.inr (.inl hres)))
  | poll => exact .inr (.inr (.inr (.inr (.inl ⟨hc, .inl hk⟩))))
  | take => exact .inr (.inr (.inr (.inr (.inl ⟨hc, .inr hk⟩))))
  | output => exact .inr (.inr (.inr (.inr (.inr ⟨hc, hk⟩))))
  | reg | cond | pc | store => exact hc.elim

end Sys2Proof.Machine
end

section
/-! PROOFS. The program image: its bytes are its words, and a loaded memory reads as the last word that the image has for an
address, or as before (rules R233, R234). -/

namespace Sys2Proof.Machine

/-! ### The bytes of an image (rules R233, R234) -/

theorem wordOfBytes_highByte_lowByte (w : Word) : wordOfBytes (highByte w) (lowByte w) = w := by
  calc wordOfBytes (highByte w) (lowByte w)
    _ = w.extractLsb' 0 16 := BitVec.extractLsb'_append_extractLsb'_eq_extractLsb' rfl
    _ = w := BitVec.extractLsb'_eq_self

theorem imageWords_imageBytes_append (ws : List Word) (bytes : List Byte) :
    imageWords (imageBytes ws ++ bytes) = ws ++ imageWords bytes := by
  induction ws with
  | nil => rfl
  | cons w ws ih =>
    rw [imageBytes, ← highByte_eq_ofNat, ← lowByte_eq_ofNat, List.cons_append, List.cons_append, imageWords,
      wordOfBytes_highByte_lowByte, ih, List.cons_append]

theorem imageWords_imageBytes (ws : List Word) : imageWords (imageBytes ws) = ws := by
  simpa [imageWords] using imageWords_imageBytes_append ws []

/-- An odd byte at the end is dropped. -/
theorem imageWords_imageBytes_odd (ws : List Word) (b : Byte) : imageWords (imageBytes ws ++ [b]) = ws := by
  simpa [imageWords] using imageWords_imageBytes_append ws [b]

theorem imageWords_of_length_lt {bytes : List Byte} (h : bytes.length < 2) : imageWords bytes = [] := by
  match bytes with
  | [] | [_] => rfl
  | _ :: _ :: _ => simp at h

/-! ### The load by the image's words -/

theorem loadImage_of_words {bytes : List Byte} {origin : Word} {ws : List Word} (h : imageWords bytes = origin :: ws)
    (s : State) : loadImage bytes s = .ok { s with mem := loadWords ws origin s.mem } := by
  rw [loadImage, h]

theorem loadImage_of_no_words {bytes : List Byte} (h : imageWords bytes = []) (s : State) :
    loadImage bytes s = .error .noOrigin := by
  rw [loadImage, h]

/-- Settles O56: the load sees the words of the image only, and these do not have the odd byte. -/
theorem imageLoadCornerCases : Obligations.ImageLoadCornerCases := by
  refine ⟨fun s origin ws b => ?_, fun s origin => ?_, fun s bytes h => ?_⟩
  · rw [loadImage_of_words (imageWords_imageBytes_odd _ b), loadImage_of_words (imageWords_imageBytes _)]
  · exact loadImage_of_words (imageWords_imageBytes [origin]) s
  · exact loadImage_of_no_words (imageWords_of_length_lt h) s

/-! ### What a loaded memory reads as (rules R233, R234) -/

/-- The word that a load of `ws` from `a` on leaves at `b`: the last of them that lies there, where the load overlaps
itself. -/
def loadedWord : List Word → Word → Word → Option Word
  | [], _, _ => none
  | w :: ws, a, b => (loadedWord ws (addWrap a 0x0001#16) b).or (if b = a then some w else none)

theorem loadWords_read (ws : List Word) (a b : Word) {m : Memory} (h : m.wf = true) :
    (loadWords ws a m).read b = (loadedWord ws a b).getD (m.read b) := by
  induction ws generalizing a m with
  | nil => rfl
  | cons w ws ih =>
    rw [loadWords, ih _ (Memory.wf_write a w h), loadedWord, Memory.read_write _ _ _ h]
    cases loadedWord ws (addWrap a 0x0001#16) b with
    | some v => rfl
    | none => split <;> rfl

theorem addWrap_one_add (a : Word) (k : Nat) :
    addWrap a 0x0001#16 + BitVec.ofNat 16 k = a + BitVec.ofNat 16 (k + 1) := by
  rw [addWrap, BitVec.add_assoc, ← BitVec.ofNat_add, Nat.add_comm]

theorem loadedWord_eq_none {ws : List Word} {a b : Word} (h : ∀ k, k < ws.length → b ≠ a + BitVec.ofNat 16 k) :
    loadedWord ws a b = none := by
  induction ws generalizing a with
  | nil => rfl
  | cons w ws ih =>
    have hfirst : b ≠ a := by simpa using h 0 (Nat.zero_lt_succ _)
    have hrest : loadedWord ws (addWrap a 0x0001#16) b = none :=
      ih fun k hk => addWrap_one_add a k ▸ h (k + 1) (Nat.succ_lt_succ hk)
    rw [loadedWord, hrest, if_neg hfirst]
    rfl

/-- Fewer than 65536 further words do not wrap back to `a`. -/
theorem ne_add_ofNat_succ (a : Word) {k : Nat} (hk : k + 1 < 65536) : a ≠ a + BitVec.ofNat 16 (k + 1) := by
  bv_omega

/-- At most 65536 words do not overlap. -/
theorem loadedWord_eq_some {ws : List Word} {a : Word} (hlen : ws.length ≤ 65536) {k : Nat} (hk : k < ws.length) :
    loadedWord ws a (a + BitVec.ofNat 16 k) = some ws[k] := by
  induction ws generalizing a k with
  | nil => exact absurd hk (Nat.not_lt_zero k)
  | cons w ws ih =>
    rw [List.length_cons] at hlen hk
    rw [loadedWord]
    cases k with
    | zero =>
      have hrest : loadedWord ws (addWrap a 0x0001#16) a = none :=
        loadedWord_eq_none fun j hj => addWrap_one_add a j ▸ ne_add_ofNat_succ a (by omega)
      simp [hrest]
    | succ k =>
      rw [← addWrap_one_add, ih (by omega) (by omega)]
      rfl

/-- Settles O55: a loaded memory reads as the image's own word inside the image, and as before outside it. -/
theorem imageLoadWritesItsWords : Obligations.ImageLoadWritesItsWords := by
  intro s origin ws hs hlen
  have hread (b : Word) := loadWords_read ws origin b hs.mem_wf
  refine ⟨_, loadImage_of_words (imageWords_imageBytes (origin :: ws)) s, rfl,
    hs.of_eq (loadWords_wf ws origin hs.mem_wf) rfl rfl, fun k hk => ?_, fun a ha => ?_⟩
  · exact (hread _).trans (by rw [loadedWord_eq_some hlen hk, Option.getD_some])
  · exact (hread a).trans (by rw [loadedWord_eq_none ha, Option.getD_none])

/-! ### Loading again (rule R234) -/

theorem loadWords_loadWords (ws : List Word) (a : Word) {m : Memory} (h : m.wf = true) :
    loadWords ws a (loadWords ws a m) = loadWords ws a m := by
  have hwf := loadWords_wf ws a h
  refine Memory.ext_read (loadWords_wf ws a hwf) hwf fun b => ?_
  rw [loadWords_read ws a b hwf, loadWords_read ws a b h]
  cases loadedWord ws a b <;> rfl

/-- Settles O57: the word that a load leaves at an address does not depend on the memory it loads into. -/
theorem repeatedImageLoadChangesNothing : Obligations.RepeatedImageLoadChangesNothing := by
  intro s t bytes hs ht
  obtain ⟨origin, ws, hw, rfl⟩ := loadImage_eq_ok ht
  rw [loadImage_of_words hw, loadWords_loadWords ws origin hs.mem_wf]

end Sys2Proof.Machine
end
